-- ==== Sys2Proof/Syntax.lean ====
section
/-! DEFINITION. The commands a host can write to the CMD register: the rows of spec/opcode_table.json. -/

namespace Sys2Proof

/-- The commands of 30_encoding.md R82. None carries an operand in its word (R83). -/
inductive Instr where
  /-- NOP: nothing (40_transform_command.md R100) -/
  | nop
  /-- XFORM: validate the descriptor and start a job (R101 to R105) -/
  | xform
  /-- ACK: return STATUS to IDLE from DONE or FAILED (R112) -/
  | ack
  deriving DecidableEq, Repr

end Sys2Proof
end

