-- ==== Sys2Proof/Word.lean ====
section
/-! DEFINITION. The word types of the hardware. -/

namespace Sys2Proof

/-- A register of the REG port, and a command word: 32 bits (spec 10_state.md R22, 30_encoding.md R80). -/
abbrev Word := BitVec 32

/-- A byte of the PIX space: an unsigned 8-bit sample (20_memory.md R50, R52). -/
abbrev Byte := BitVec 8

/-- An element of the TBL space: a signed 16-bit value (20_memory.md R53). -/
abbrev Elem := BitVec 16

end Sys2Proof
end

