-- ==== Sys2Proof/Config.lean ====
section
/-! DEFINITION. What is fixed for one built instance of the hardware: the parameters of 00_scope.md R6 and R10.
They are data of the state (`State.cfg`) that no step changes, so that every claim is made for every configuration
(log 1). Which configurations are hardware is `Cfg.wellFormed` (WellFormed.lean). The last two definitions are the
model's free values. -/

namespace Sys2Proof

/-- The configuration. The first three fields are the record `Cfg` of 00_scope.md R6; the last two are
ADDR_BITS and TBL_CAPACITY of R10. -/
structure Cfg where
  /-- PRECISION_BITS -/
  precisionBits : Nat
  /-- SCALE_BITS -/
  scaleBits : Nat
  /-- SHIFT_BITS -/
  shiftBits : Nat
  /-- ADDR_BITS: PIX has `2^addrBits` bytes (20_memory.md R50) -/
  addrBits : Nat
  /-- TBL_CAPACITY: the elements of TBL (20_memory.md R53) -/
  tblCapacity : Nat
  deriving DecidableEq, Repr

/-- The configuration of `State.reset`: PRECISION_BITS 6, SCALE_BITS 18, SHIFT_BITS 15 are the default of
00_scope.md R9, which the spec marks as general knowledge (PRESUMED, log 2); ADDR_BITS 32 is the default of R10;
TBL_CAPACITY is the least value R10 allows (DESIGN CHOICE, log 2). -/
def Cfg.standard : Cfg :=
  { precisionBits := 6, scaleBits := 18, shiftBits := 15, addrBits := 32, tblCapacity := 1098500 }

/-- What register number `n` (10_state.md R22) holds after the reset that `resets` resets came before, until it is
written: unspecified, "not 0 or any fixed value" (10_state.md R37). A free value: nothing is known of it (log 17). -/
opaque Config.unwrittenRegister (resets n : Nat) : Word

/-- A byte of a running job's output, at address `a`, of which nothing is promised: what a load of it returns before
DONE (70_reset_and_hazards.md R214, R216), and what it holds after a breach of the host's duties
(93_implementation_defined.md U6). A free value, a new one for each `draw`: nothing is known of it (log 18). -/
opaque Config.openByte (draw a : Nat) : Byte

end Sys2Proof
end

