-- ==== Sys2Proof/WellFormed.lean ====
section
/-! DEFINITION. Which configurations are hardware, and which instructions are well formed. -/

namespace Sys2Proof

/-- K1 of 00_scope.md R7. -/
def Cfg.k1 (c : Cfg) : Bool := 1 ≤ c.precisionBits && c.precisionBits ≤ 7

/-- K2 of 00_scope.md R7. -/
def Cfg.k2 (c : Cfg) : Bool := 1 ≤ c.shiftBits && c.shiftBits ≤ 15

/-- K3 of 00_scope.md R7. -/
def Cfg.k3 (c : Cfg) : Bool := c.shiftBits ≤ c.scaleBits

/-- K4 of 00_scope.md R7. -/
def Cfg.k4 (c : Cfg) : Bool := c.scaleBits ≤ 26

/-- ADDR_BITS is at least 1 (00_scope.md R10). -/
def Cfg.addrBitsOk (c : Cfg) : Bool := 1 ≤ c.addrBits

/-- TBL holds every legal table, `4*65*65*65` elements (00_scope.md R10). -/
def Cfg.capacityOk (c : Cfg) : Bool := 1098500 ≤ c.tblCapacity

/-- A configuration is hardware when all six conditions hold (00_scope.md R7, R10). -/
def Cfg.wellFormed (c : Cfg) : Bool :=
  c.k1 && c.k2 && c.k3 && c.k4 && c.addrBitsOk && c.capacityOk

/-- The configuration with these parameters, refused at construction when it is not valid (00_scope.md R7). -/
def Cfg.build (precisionBits scaleBits shiftBits addrBits tblCapacity : Nat) : Option Cfg :=
  let c : Cfg :=
    { precisionBits := precisionBits, scaleBits := scaleBits, shiftBits := shiftBits, addrBits := addrBits,
      tblCapacity := tblCapacity }
  if c.wellFormed then some c else none

/-- Every command is well formed: a command word has no operand, so there is no operand value to refuse
(30_encoding.md R80, R83). -/
def Instr.wellFormed : Instr → Bool
  | .nop => true
  | .xform => true
  | .ack => true

end Sys2Proof
end

