-- ==== Sys2Proof/Decode.lean ====
section
/-! DEFINITION. Command words to commands and back (30_encoding.md R80, R82, R84). -/

namespace Sys2Proof

/-- Why a word decodes to no command. -/
inductive DecodeError where
  /-- A reserved command word (30_encoding.md R84): any word but 0, 1, 2. -/
  | reserved (w : Word)
  deriving DecidableEq, Repr

/-- The command a word selects: all 32 bits are compared (R82). -/
def decode (w : Word) : Except DecodeError Instr :=
  if w = 0x00000000#32 then .ok .nop
  else if w = 0x00000001#32 then .ok .xform
  else if w = 0x00000002#32 then .ok .ack
  else .error (.reserved w)

/-- The word of a command (R82). -/
def encode : Instr → Word
  | .nop => 0x00000000#32
  | .xform => 0x00000001#32
  | .ack => 0x00000002#32

/-- The command word made of the low `nbits` bits of `w`, the bits above them 0. A command word is one 32-bit
unit that the host hands over whole, so there is no byte order (20_memory.md R57). -/
def tableWord (nbits w : Nat) : Word := BitVec.ofNat 32 (w % 2 ^ nbits)

/-- The instruction the decoder reads from the word `w` of a row of spec/opcode_table.json. No command is longer
than 32 bits (R80). -/
def decodeTableWord (nbits w : Nat) : Option Instr :=
  if nbits ≤ 32 then
    match decode (tableWord nbits w) with
    | .ok i => some i
    | .error _ => none
  else none

end Sys2Proof
end

