-- ==== Sys2Proof/Machine/Arith.lean ====
section
/-! DEFINITION. The operators of 00_scope.md R12, the two derived constants of R8, and bounded searches. -/

namespace Sys2Proof.Machine

/-- `x >>a n`: the arithmetic right shift, `floor(x / 2^n)` for negative `x` too (00_scope.md R12). -/
def sar (x : Int) (n : Nat) : Int := x / 2 ^ n

/-- PRECISION_ROUNDING (00_scope.md R8). -/
def precisionRounding (c : Cfg) : Nat := 2 ^ (c.precisionBits - 1)

/-- SCALE_MASK (00_scope.md R8). -/
def scaleMask (c : Cfg) : Nat := 2 ^ c.scaleBits - 1

/-- The sum of a `frac` and its `comp`: `2^SHIFT_BITS - 1` (41_coordinate_scaler.md R136). -/
def weightSum (c : Cfg) : Nat := 2 ^ c.shiftBits - 1

/-- `f i` for every `i` below `n`. -/
def allBelow : Nat → (Nat → Bool) → Bool
  | 0, _ => true
  | n + 1, f => f n && allBelow n f

/-- `f i` for some `i` below `n`. -/
def anyBelow : Nat → (Nat → Bool) → Bool
  | 0, _ => false
  | n + 1, f => f n || anyBelow n f

end Sys2Proof.Machine
end

