-- ==== Sys2Proof/Machine/State.lean ====
section
/-! DEFINITION. The state of the block, its memories and its surroundings, as plain data; the reasons a step can
stop; the state after reset. -/

namespace Sys2Proof.Machine

/-- STATUS.STATE (10_state.md R24). -/
inductive JobState where
  | idle | busy | done | failed
  deriving DecidableEq, Repr

/-- STATUS.ERR (10_state.md R24): NONE and the two error kinds of 60_exceptions.md R185. Code 3 is never
produced. -/
inductive ErrCode where
  | noError | invalidArgument | modeMismatch
  deriving DecidableEq, Repr

/-- The three axes of the table (41_coordinate_scaler.md R130). -/
inductive Axis where
  | axis0 | axis1 | axis2
  deriving DecidableEq, Repr

/-- The two images (20_memory.md R51). -/
inductive Image where
  | input | output
  deriving DecidableEq, Repr

/-- The names of the sixteen descriptor registers (10_state.md R22, R25). -/
inductive DReg where
  | tableChannels | size1D | size2D | size3D | width | height
  | inType | inBands | inPstride | inRstride | inBase
  | outType | outBands | outPstride | outRstride | outBase
  deriving DecidableEq, Repr

/-- The 22 registers of the REG port (10_state.md R22). -/
inductive Reg where
  | cmd | status | params
  | desc (r : DReg)
  | scale (d : Axis)
  deriving DecidableEq, Repr

/-- One `α` for each descriptor register. -/
structure Bank (α : Type) where
  tableChannels : α
  size1D : α
  size2D : α
  size3D : α
  width : α
  height : α
  inType : α
  inBands : α
  inPstride : α
  inRstride : α
  inBase : α
  outType : α
  outBands : α
  outPstride : α
  outRstride : α
  outBase : α
  deriving DecidableEq, Repr

/-- The values of the sixteen descriptor registers. -/
abbrev Descriptor := Bank Word

/-- A bank that holds `a` sixteen times. -/
def Bank.uniform {α : Type} (a : α) : Bank α :=
  { tableChannels := a, size1D := a, size2D := a, size3D := a, width := a, height := a, inType := a, inBands := a,
    inPstride := a, inRstride := a, inBase := a, outType := a, outBands := a, outPstride := a, outRstride := a,
    outBase := a }

/-- What exists only while a job runs. -/
structure Job where
  /-- the latched descriptor `L` (10_state.md R30) -/
  latched : Descriptor
  /-- the row cursors: entry `y` is `CUR[y]` (10_state.md R31) -/
  cur : List Nat
  /-- the model's own: a store of the host has broken its duties towards this job (20_memory.md R64), so that the
  job's output bytes hold any value (93_implementation_defined.md U6; log 18) -/
  disturbed : Bool
  deriving DecidableEq, Repr

/-- One move of one of the agents around and in the block (10_state.md R20, R21). Which agent moves next is no
state of the block: it is open (R36; 93_implementation_defined.md U13), and the model takes it as data (log 6). -/
inductive Move where
  /-- `RegWrite(off, data)` of the host (30_encoding.md R81) -/
  | regWrite (off : Nat) (data : Word)
  /-- `RegRead(off)` of the host (R81) -/
  | regRead (off : Nat)
  /-- a REG access of `bytes` bytes, fewer than a word: outside the interface (R85, log 13) -/
  | regNarrow (off bytes : Nat)
  /-- the host stores a byte in PIX (10_state.md R21) -/
  | pixWrite (a : Nat) (v : Byte)
  /-- the host loads a byte of PIX (R21) -/
  | pixRead (a : Nat)
  /-- the host stores an element in TBL (R21) -/
  | tblWrite (o : Nat) (v : Elem)
  /-- the host loads an element of TBL (R21) -/
  | tblRead (o : Nat)
  /-- the pseudo-instruction POLL of the host (30_encoding.md R87) -/
  | poll
  /-- a step of the sampler: the pixel step of row `y` for `some y`; for `none` the step of the reference schedule,
  the pixel step of the least unfinished row or else the completion step (40_transform_command.md R106, R111) -/
  | sampler (row : Option Nat)
  /-- the reset event (70_reset_and_hazards.md R210); `torn` lists, for rows whose next pixel was in flight, the
  bands already written (R211, log 11) -/
  | reset (torn : List (Nat × List Nat))
  deriving DecidableEq, Repr

/-- The state. -/
structure State where
  /-- the configuration, fixed for the hardware (00_scope.md R6, R10; log 1) -/
  cfg : Cfg
  /-- STATUS.STATE (10_state.md R24) -/
  state : JobState
  /-- STATUS.ERR (R24) -/
  err : ErrCode
  /-- the descriptor registers (R25) -/
  desc : Descriptor
  /-- which descriptor registers have been written since reset (40_transform_command.md R104 P1) -/
  written : Bank Bool
  /-- SCALE0 (10_state.md R27) -/
  scale0 : Word
  /-- SCALE1 (R27) -/
  scale1 : Word
  /-- SCALE2 (R27) -/
  scale2 : Word
  /-- an XFORM has passed validation since reset, so SCALE0..2 hold values (R27, R37) -/
  scaleWritten : Bool
  /-- `L` and the cursors, present while a job runs (R30, R31) -/
  job : Option Job
  /-- the PIX space, in the canonical form of `Memory.wf` (20_memory.md R50) -/
  pix : List Host.Cell
  /-- the TBL space, in the same form (R53) -/
  tbl : List (Nat × Elem)
  /-- the model's own: the moves still to come (log 6) -/
  moves : List Move
  /-- the model's own: what the last read transaction returned to the host (log 7) -/
  readData : Word
  /-- the model's own: how many reset events came after the first reset; it chooses the free values that unwritten
  registers hold (log 17) -/
  resets : Nat
  /-- the model's own: the number of the next draw of `Config.openByte` (log 18) -/
  draws : Nat
  deriving DecidableEq, Repr

/-- Why the machine stops with a fault. Both concern an access the HOST names; the block itself makes none of them
(20_memory.md R55, R60; 60_exceptions.md R185). -/
inductive Fault where
  /-- Raised by the moves `pixRead` and `pixWrite`: the address is not below `2^ADDR_BITS`, so the byte does not
  exist (20_memory.md R50). Safe: the machine stops. -/
  | noSuchPixByte (a : Nat)
  /-- Raised by the moves `tblRead` and `tblWrite`: the offset is not below TBL_CAPACITY, so the element does not
  exist (20_memory.md R53). Safe: the machine stops. -/
  | noSuchTblElement (o : Nat)
  deriving DecidableEq, Repr

/-- Why the model has no step: the situations that the spec itself refuses, each under its own name
(93_implementation_defined.md). All are safe: the model stops. -/
inductive Refusal where
  /-- Raised by an arm of `exec` whose instruction has no meaning yet. Safe. -/
  | notModelled (mnemonic : String)
  /-- Raised by XFORM: a descriptor register has not been written since reset (R104 P1, U1). Safe. -/
  | descriptorUnwritten
  /-- Raised by XFORM: a grid size is outside 2 to 65 (R104 P2, U2). Safe. -/
  | gridSizeOutOfRange
  /-- Raised by XFORM: the table is longer than TBL (R104 P3, U3). Safe. -/
  | tableBeyondTbl
  /-- Raised by XFORM: a sample address reaches `2^ADDR_BITS` (R104 P4, R60, U4). Safe. -/
  | imageBeyondPix
  /-- Raised by XFORM: the images overlap so that the result would depend on the schedule (R104 P5, R61, U5). Safe. -/
  | imagesOverlap
  /-- Raised by `regRead`, `regWrite` and `regNarrow`: the access is outside the interface (R85, U8). Safe. -/
  | outsideRegInterface (off : Nat)
  deriving DecidableEq, Repr

/-- The block with configuration `c` right after reset (10_state.md R37): IDLE, no error, no register written, no
job. The zeros of the descriptor and SCALE fields are the model's (DESIGN CHOICE, log 3, log 4): R37 leaves these
registers unspecified, an XFORM does not use them (R104 P1) and a read returns a free value in their place (log 17).
Memory lists nothing (log 5); no move is pending. -/
def State.resetWith (c : Cfg) : State :=
  { cfg := c, state := .idle, err := .noError, desc := Bank.uniform 0#32, written := Bank.uniform false,
    scale0 := 0#32, scale1 := 0#32, scale2 := 0#32, scaleWritten := false, job := none, pix := [], tbl := [],
    moves := [], readData := 0#32, resets := 0, draws := 0 }

/-- The machine right after reset, at the standard configuration (10_state.md R37). -/
def State.reset : State := State.resetWith Cfg.standard

end Sys2Proof.Machine
end

