-- ==== Sys2Proof/Machine/Flags.lean ====
section
/-! DEFINITION. The status fields as software reads them (10_state.md R24, R26). The block has no condition codes,
carry or overflow flags and no sticky bits (R33): STATUS is all there is. -/

namespace Sys2Proof.Machine

/-- The code of STATUS.STATE (10_state.md R24). -/
def JobState.code : JobState → Nat
  | .idle => 0
  | .busy => 1
  | .done => 2
  | .failed => 3

/-- The code of STATUS.ERR (10_state.md R24; 60_exceptions.md R186, R187). -/
def ErrCode.code : ErrCode → Nat
  | .noError => 0
  | .invalidArgument => 1
  | .modeMismatch => 2

/-- The STATUS word: STATE in bits 1..0, ERR in bits 3..2, bits 31..4 zero (10_state.md R24). -/
def statusWord (st : JobState) (e : ErrCode) : Word := BitVec.ofNat 32 (st.code + 4 * e.code)

/-- The PARAMS word: PRECISION_BITS in bits 7..0, SCALE_BITS in 15..8, SHIFT_BITS in 23..16, bits 31..24 zero
(10_state.md R26). -/
def paramsWord (c : Cfg) : Word :=
  BitVec.ofNat 32 (c.precisionBits + 2 ^ 8 * c.scaleBits + 2 ^ 16 * c.shiftBits)

end Sys2Proof.Machine
end

