-- ==== Sys2Proof/Machine/Ops.lean ====
section
/-! DEFINITION. The named operations over memory, the registers, the host's side of the state, error entry and the
return from it. -/

namespace Sys2Proof.Machine

/-! ### Memory: a list of (address, cell) pairs in one canonical form. PIX has cells of 8 bits, TBL of 16. -/

/-- What an address that no entry names reads as (DESIGN CHOICE, log 5). -/
def Memory.unlisted (w : Nat) : BitVec w := 0#w

/-- The canonical form: addresses strictly rising, no entry equal to what an unlisted address reads as. -/
def Memory.wf {w : Nat} : List (Nat × BitVec w) → Bool
  | [] => true
  | [p] => p.2 != Memory.unlisted w
  | p :: q :: m => p.2 != Memory.unlisted w && (p.1 < q.1 && Memory.wf (q :: m))

/-- Every address of the memory is below `n`. -/
def Memory.below {w : Nat} (n : Nat) (m : List (Nat × BitVec w)) : Bool := m.all fun p => p.1 < n

/-- `MemRead(space, a, 1)` (00_scope.md R13). -/
def Memory.read {w : Nat} : List (Nat × BitVec w) → Nat → BitVec w
  | [], _ => Memory.unlisted w
  | p :: m, a => if p.1 = a then p.2 else Memory.read m a

/-- `MemWrite(space, a, 1, v)` (00_scope.md R13), keeping the canonical form. -/
def Memory.write {w : Nat} : List (Nat × BitVec w) → Nat → BitVec w → List (Nat × BitVec w)
  | [], a, v => if v = Memory.unlisted w then [] else [(a, v)]
  | p :: m, a, v =>
    if a < p.1 then (if v = Memory.unlisted w then p :: m else (a, v) :: p :: m)
    else if a = p.1 then (if v = Memory.unlisted w then m else (a, v) :: m)
    else p :: Memory.write m a v

/-! ### The register map (10_state.md R22) -/

/-- One of sixteen values, by the descriptor register's name. -/
def Bank.get {α : Type} (b : Bank α) : DReg → α
  | .tableChannels => b.tableChannels
  | .size1D => b.size1D
  | .size2D => b.size2D
  | .size3D => b.size3D
  | .width => b.width
  | .height => b.height
  | .inType => b.inType
  | .inBands => b.inBands
  | .inPstride => b.inPstride
  | .inRstride => b.inRstride
  | .inBase => b.inBase
  | .outType => b.outType
  | .outBands => b.outBands
  | .outPstride => b.outPstride
  | .outRstride => b.outRstride
  | .outBase => b.outBase

/-- The bank with one of its sixteen values replaced. -/
def Bank.set {α : Type} (b : Bank α) (r : DReg) (a : α) : Bank α :=
  match r with
  | .tableChannels => { b with tableChannels := a }
  | .size1D => { b with size1D := a }
  | .size2D => { b with size2D := a }
  | .size3D => { b with size3D := a }
  | .width => { b with width := a }
  | .height => { b with height := a }
  | .inType => { b with inType := a }
  | .inBands => { b with inBands := a }
  | .inPstride => { b with inPstride := a }
  | .inRstride => { b with inRstride := a }
  | .inBase => { b with inBase := a }
  | .outType => { b with outType := a }
  | .outBands => { b with outBands := a }
  | .outPstride => { b with outPstride := a }
  | .outRstride => { b with outRstride := a }
  | .outBase => { b with outBase := a }

/-- All sixteen flags are set (40_transform_command.md R104 P1). -/
def Bank.allSet (b : Bank Bool) : Bool :=
  b.tableChannels && b.size1D && b.size2D && b.size3D && b.width && b.height && b.inType && b.inBands &&
    b.inPstride && b.inRstride && b.inBase && b.outType && b.outBands && b.outPstride && b.outRstride && b.outBase

/-- The register's number `n` (10_state.md R22). -/
def Reg.number : Reg → Nat
  | .cmd => 0
  | .status => 1
  | .params => 2
  | .desc .tableChannels => 3
  | .desc .size1D => 4
  | .desc .size2D => 5
  | .desc .size3D => 6
  | .desc .width => 7
  | .desc .height => 8
  | .desc .inType => 9
  | .desc .inBands => 10
  | .desc .inPstride => 11
  | .desc .inRstride => 12
  | .desc .inBase => 13
  | .desc .outType => 14
  | .desc .outBands => 15
  | .desc .outPstride => 16
  | .desc .outRstride => 17
  | .desc .outBase => 18
  | .scale .axis0 => 19
  | .scale .axis1 => 20
  | .scale .axis2 => 21

/-- The register's byte offset: `4*n` (10_state.md R22). -/
def Reg.offset (r : Reg) : Nat := 4 * r.number

/-- The registers in the order of their numbers (10_state.md R22). -/
def Reg.all : List Reg :=
  [.cmd, .status, .params, .desc .tableChannels, .desc .size1D, .desc .size2D, .desc .size3D, .desc .width,
   .desc .height, .desc .inType, .desc .inBands, .desc .inPstride, .desc .inRstride, .desc .inBase, .desc .outType,
   .desc .outBands, .desc .outPstride, .desc .outRstride, .desc .outBase, .scale .axis0, .scale .axis1,
   .scale .axis2]

/-- The register at a byte offset; none outside the interface (10_state.md R22, 30_encoding.md R85). -/
def Reg.ofOffset (off : Nat) : Option Reg := if off % 4 = 0 then Reg.all[off / 4]? else none

/-! ### Registers -/

/-- The SCALE register of an axis (10_state.md R27). -/
def State.scale (s : State) : Axis → Word
  | .axis0 => s.scale0
  | .axis1 => s.scale1
  | .axis2 => s.scale2

/-- What a descriptor register holds: what was last written, or before that a free value (10_state.md R25, R37;
log 17). -/
def State.descValue (s : State) (r : DReg) : Word :=
  if s.written.get r then s.desc.get r else Config.unwrittenRegister s.resets (Reg.number (.desc r))

/-- What a SCALE register holds: the constant of the last started job, or before the first a free value (10_state.md
R27, R37; log 17). -/
def State.scaleValue (s : State) (d : Axis) : Word :=
  if s.scaleWritten then s.scale d else Config.unwrittenRegister s.resets (Reg.number (.scale d))

/-- What a read of a register returns (10_state.md R23 to R27): reads are always allowed (R29). -/
def State.readReg (s : State) : Reg → Word
  | .cmd => 0#32
  | .status => statusWord s.state s.err
  | .params => paramsWord s.cfg
  | .desc r => s.descValue r
  | .scale d => s.scaleValue d

/-- A write of a descriptor register: dropped while BUSY, else effective at once (10_state.md R25, R29). -/
def State.writeDesc (s : State) (r : DReg) (v : Word) : State :=
  if s.state = .busy then s else { s with desc := s.desc.set r v, written := s.written.set r true }

/-- A read transaction hands `v` to the host; no register changes (10_state.md R28; log 7). -/
def State.returnToHost (s : State) (v : Word) : State := { s with readData := v }

/-- The moves still to come. -/
def State.withMoves (s : State) (ms : List Move) : State := { s with moves := ms }

/-! ### Error entry and the return from it -/

/-- Error entry (60_exceptions.md R189): STATE becomes FAILED, ERR the code; nothing else changes. -/
def State.enterError (s : State) (e : ErrCode) : State := { s with state := .failed, err := e }

/-- The return to IDLE (40_transform_command.md R112): STATE becomes IDLE, ERR becomes NONE. -/
def State.returnToIdle (s : State) : State := { s with state := .idle, err := .noError }

end Sys2Proof.Machine
end

