-- ==== Sys2Proof/Machine/Operands.lean ====
section
/-! DEFINITION. The operands of a job: the descriptor's values as unsigned integers (30_encoding.md R83), sample
addresses and table length (20_memory.md), the validation (40_transform_command.md R102) and the preconditions
(R104). -/

namespace Sys2Proof.Machine

/-! ### The descriptor's values -/

/-- `tc` (10_state.md R25). -/
def Bank.tc (L : Descriptor) : Nat := L.tableChannels.toNat

/-- `size[d]` (41_coordinate_scaler.md R130). -/
def Bank.size (L : Descriptor) : Axis → Nat
  | .axis0 => L.size1D.toNat
  | .axis1 => L.size2D.toNat
  | .axis2 => L.size3D.toNat

/-- WIDTH. -/
def Bank.W (L : Descriptor) : Nat := L.width.toNat

/-- HEIGHT. -/
def Bank.H (L : Descriptor) : Nat := L.height.toNat

/-- I_BASE of an image. -/
def Bank.base (L : Descriptor) : Image → Nat
  | .input => L.inBase.toNat
  | .output => L.outBase.toNat

/-- I_RSTRIDE of an image. -/
def Bank.rstride (L : Descriptor) : Image → Nat
  | .input => L.inRstride.toNat
  | .output => L.outRstride.toNat

/-- I_PSTRIDE of an image. -/
def Bank.pstride (L : Descriptor) : Image → Nat
  | .input => L.inPstride.toNat
  | .output => L.outPstride.toNat

/-- The bands of a pixel that a job touches: 3 of the input are read, `tc` of the output written (R59). -/
def Bank.touched (L : Descriptor) : Image → Nat
  | .input => 3
  | .output => L.tc

/-- `addr(I, y, x, b)`, in the integers (20_memory.md R51). -/
def sampleAddr (L : Descriptor) (i : Image) (y x b : Nat) : Nat :=
  L.base i + y * L.rstride i + x * L.pstride i + b

/-- `off(i, j, k, c)`: the element of channel `c` of node `(i, j, k)` (20_memory.md R54). -/
def nodeOffset (L : Descriptor) (i j k c : Nat) : Nat :=
  c + L.tc * (i + j * L.size .axis0 + k * L.size .axis0 * L.size .axis1)

/-- `N`, the length of the job's table (20_memory.md R53). -/
def tableLen (L : Descriptor) : Nat := L.tc * L.size .axis0 * L.size .axis1 * L.size .axis2

/-! ### Validation (40_transform_command.md R102) -/

/-- V1 fires: `table_channels` is neither 3 nor 4 (60_exceptions.md R186). -/
def v1 (d : Descriptor) : Bool := d.tc != 3 && d.tc != 4

/-- V2 fires: a type is not 8-bit unsigned, or there are too few bands (60_exceptions.md R187). -/
def v2 (d : Descriptor) : Bool :=
  d.inType != 0#32 || d.outType != 0#32 || d.inBands.toNat < 3 || d.outBands.toNat < d.tc

/-- V3 fires: the output has an extra band that the input lacks (60_exceptions.md R188). -/
def v3 (d : Descriptor) : Bool := d.outBands.toNat > d.tc && d.outBands.toNat > d.inBands.toNat

/-- The checks in the order V1, V2, V3: the first that fires decides (60_exceptions.md R190). -/
def validate (d : Descriptor) : ErrCode :=
  if v1 d then .invalidArgument else if v2 d then .modeMismatch else if v3 d then .modeMismatch else .noError

/-! ### The preconditions P2 to P5 (40_transform_command.md R104) -/

/-- P2: each grid size is 2 to 65. -/
def p2 (d : Descriptor) : Bool :=
  (2 ≤ d.size .axis0 && d.size .axis0 ≤ 65) && (2 ≤ d.size .axis1 && d.size .axis1 ≤ 65) &&
    (2 ≤ d.size .axis2 && d.size .axis2 ≤ 65)

/-- P3: the table fits TBL. -/
def p3 (c : Cfg) (d : Descriptor) : Bool := tableLen d ≤ c.tblCapacity

/-- The address of the last touched byte of an image of at least one pixel (20_memory.md R60). -/
def lastAddr (d : Descriptor) (i : Image) : Nat := sampleAddr d i (d.H - 1) (d.W - 1) (d.touched i - 1)

/-- P4: no sample address reaches `2^ADDR_BITS` (20_memory.md R60). -/
def p4 (c : Cfg) (d : Descriptor) : Bool :=
  d.W == 0 || d.H == 0 || (lastAddr d .input < 2 ^ c.addrBits && lastAddr d .output < 2 ^ c.addrBits)

/-- The byte ranges `[a, a+m)` and `[b, b+n)` do not meet. -/
def apart (a m b n : Nat) : Bool := a + m ≤ b || b + n ≤ a

/-- For pixels `(x, y)` and `(u, v)`: what the first writes, the second neither reads nor writes
(20_memory.md R61). -/
def pixelsApart (d : Descriptor) (y x v u : Nat) : Bool :=
  apart (sampleAddr d .output y x 0) d.tc (sampleAddr d .input v u 0) 3 &&
    apart (sampleAddr d .output y x 0) d.tc (sampleAddr d .output v u 0) d.tc

/-- The no-hazard condition of 20_memory.md R61, pixel by pixel. -/
def noHazardAll (d : Descriptor) : Bool :=
  allBelow d.H fun y => allBelow d.W fun x => allBelow d.H fun v => allBelow d.W fun u =>
    (y == v && x == u) || pixelsApart d y x v u

/-- The exact aliasing of 20_memory.md R62. -/
def aliasesExactly (d : Descriptor) : Bool :=
  d.base .input == d.base .output && d.pstride .input == d.pstride .output &&
    d.rstride .input == d.rstride .output && 3 ≤ d.pstride .input && d.tc ≤ d.pstride .input &&
    d.W * d.pstride .input ≤ d.rstride .input

/-- The other shape of 20_memory.md R62: the touched regions of the two images are disjoint, and the output's
pixels do not overlap one another. -/
def regionsDisjoint (d : Descriptor) : Bool :=
  d.tc ≤ d.pstride .output && d.W * d.pstride .output ≤ d.rstride .output &&
    (lastAddr d .input < d.base .output || lastAddr d .output < d.base .input)

/-- P5, the no-hazard condition (20_memory.md R61). It is `noHazardAll`; an empty image and the two shapes of R62,
which meet it, are recognised first so that a large image need not be searched pixel by pixel (log 16). -/
def p5 (d : Descriptor) : Bool :=
  d.W == 0 || d.H == 0 || aliasesExactly d || regionsDisjoint d || noHazardAll d

/-- The first of P2 to P5 that fails, under its own name. -/
def precondition (c : Cfg) (d : Descriptor) : Option Refusal :=
  if !p2 d then some .gridSizeOutOfRange
  else if !p3 c d then some .tableBeyondTbl
  else if !p4 c d then some .imageBeyondPix
  else if !p5 d then some .imagesOverlap
  else none

/-! ### The addresses of a running job (20_memory.md R64) -/

/-- `a` is in some `Rd(p)` of the job. -/
def jobReads (L : Descriptor) (a : Nat) : Bool :=
  anyBelow L.H fun y => anyBelow L.W fun x =>
    sampleAddr L .input y x 0 ≤ a && a < sampleAddr L .input y x 0 + 3

/-- `a` is in some `Wr(p)` of the job. -/
def jobWrites (L : Descriptor) (a : Nat) : Bool :=
  anyBelow L.H fun y => anyBelow L.W fun x =>
    sampleAddr L .output y x 0 ≤ a && a < sampleAddr L .output y x 0 + L.tc

end Sys2Proof.Machine
end

