-- ==== Sys2Proof/Machine/Scaler.lean ====
section
/-! DEFINITION. fixed_point_coordinate_scaler (41_coordinate_scaler.md). All values are non-negative integers; the
ranges of R133 to R137 show that they fit the widths of 10_state.md R32 (92_eei_decisions.md D36, log 15). -/

namespace Sys2Proof.Machine

/-- `scale[d]` of an axis with `size` nodes, rounded toward zero (R131). -/
def scaleConst (c : Cfg) (size : Nat) : Nat := (size - 1) * 2 ^ c.scaleBits / 255

/-- `idx_fixed[d]` (R132). -/
def idxFixed (c : Cfg) (size : Nat) (v : Byte) : Nat := v.toNat * scaleConst c size

/-- `index[d]` of a fixed-point coordinate (R134). -/
def gridIndex (c : Cfg) (f : Nat) : Nat := f >>> c.scaleBits

/-- `frac[d]` of a fixed-point coordinate (R135). -/
def fracWeight (c : Cfg) (f : Nat) : Nat := (f &&& scaleMask c) >>> (c.scaleBits - c.shiftBits)

/-- `comp[d]`: one less than the exact complement, as R136 insists. -/
def compWeight (c : Cfg) (frac : Nat) : Nat := weightSum c - frac

/-- `index[d]` and `frac[d]` of one axis of one pixel. -/
structure AxisCoord where
  index : Nat
  frac : Nat
  deriving DecidableEq, Repr

/-- The scaler on one axis (R132, R134, R135). -/
def scaleAxis (c : Cfg) (size : Nat) (v : Byte) : AxisCoord :=
  { index := gridIndex c (idxFixed c size v), frac := fracWeight c (idxFixed c size v) }

/-- `idx`, the offset of channel 0 of the cell's lowest corner (R137). -/
def baseOffset (L : Descriptor) (i j k : Nat) : Nat :=
  L.tc * (i + j * L.size .axis0 + k * L.size .axis0 * L.size .axis1)

end Sys2Proof.Machine
end

