-- ==== Sys2Proof/Machine/Interpolator.lean ====
section
/-! DEFINITION. tri_linear_interpolator (42_trilinear_interpolator.md). Table elements are read as signed integers;
the blends are over the integers, and R159 shows that they fit INT16 and INT32 (92_eei_decisions.md D36, log 15). -/

namespace Sys2Proof.Machine

/-- `o(di, dj, dk)` for corner bits 0 or 1 (R150). -/
def cornerOffset (L : Descriptor) (idx di dj dk : Nat) : Nat :=
  idx + di * L.tc + dj * (L.tc * L.size .axis0) + dk * (L.tc * L.size .axis0 * L.size .axis1)

/-- `T[o]` (00_scope.md R13). -/
def tableElem (tbl : List (Nat × Elem)) (o : Nat) : Int := (Memory.read tbl o).toInt

/-- `C[di][dj][dk][c]` (R151). -/
def corner (tbl : List (Nat × Elem)) (L : Descriptor) (idx di dj dk ch : Nat) : Int :=
  tableElem tbl (cornerOffset L idx di dj dk + ch)

/-- The exact sum of a blend: the lower node carries the complementary weight (R152, R155). -/
def blendSum (c : Cfg) (a b : Int) (f : Nat) : Int := a * (compWeight c f : Int) + b * (f : Int)

/-- The blend primitive, with the arithmetic shift and no rounding bias (R152). -/
def lerp (c : Cfg) (a b : Int) (f : Nat) : Int := sar (blendSum c a b f) c.shiftBits

/-- The six intermediate values of a channel and its sum (R153, R154, R155). -/
structure Blends where
  leftleft : Int
  leftright : Int
  rightleft : Int
  rightright : Int
  left : Int
  right : Int
  acc : Int
  deriving DecidableEq, Repr

/-- The blends of one channel: along axis 0, then 1, then 2, the last left unshifted (R153 to R155, R158). The
corner values are given by their three corner bits. -/
def blends (c : Cfg) (C : Nat → Nat → Nat → Int) (f0 f1 f2 : Nat) : Blends :=
  let ll := lerp c (C 0 0 0) (C 1 0 0) f0
  let lr := lerp c (C 0 1 0) (C 1 1 0) f0
  let rl := lerp c (C 0 0 1) (C 1 0 1) f0
  let rr := lerp c (C 0 1 1) (C 1 1 1) f0
  let l := lerp c ll lr f1
  let r := lerp c rl rr f1
  { leftleft := ll, leftright := lr, rightleft := rl, rightright := rr, left := l, right := r,
    acc := blendSum c l r f2 }

end Sys2Proof.Machine
end

