-- ==== Sys2Proof/Machine/RoundClip.lean ====
section
/-! DEFINITION. fixed_point_rounding_clipper (43_rounding_clipper.md). -/

namespace Sys2Proof.Machine

/-- `PRECISION_ROUNDING << SHIFT_BITS`, the rounding bias at the accumulator's scale (R170). -/
def roundingBias (c : Cfg) : Nat := precisionRounding c * 2 ^ c.shiftBits

/-- `val`: round half up while dropping PRECISION_BITS + SHIFT_BITS fraction bits (R170). -/
def roundShift (c : Cfg) (acc : Int) : Int := sar (acc + (roundingBias c : Int)) (c.precisionBits + c.shiftBits)

/-- The saturating clip to 0..255 (R171, R174). -/
def clip (v : Int) : Int := if v < 0 then 0 else if v > 255 then 255 else v

/-- `RoundClip(acc)` (R172). -/
def roundClip (c : Cfg) (acc : Int) : Byte := BitVec.ofInt 8 (clip (roundShift c acc))

end Sys2Proof.Machine
end

