-- ==== Sys2Proof/Machine/Sequencer.lean ====
section
/-! DEFINITION. The sampler's own steps (40_transform_command.md R105 to R111) and the reset event
(70_reset_and_hazards.md R210, R211). -/

namespace Sys2Proof.Machine

/-! ### One pixel -/

/-- The blends of channel `ch` of a pixel with the addressing samples `r`, `g`, `b` (R108). -/
def pixelBlends (c : Cfg) (L : Descriptor) (tbl : List (Nat × Elem)) (r g b : Byte) (ch : Nat) : Blends :=
  let a0 := scaleAxis c (L.size .axis0) r
  let a1 := scaleAxis c (L.size .axis1) g
  let a2 := scaleAxis c (L.size .axis2) b
  blends c (fun di dj dk => corner tbl L (baseOffset L a0.index a1.index a2.index) di dj dk ch)
    a0.frac a1.frac a2.frac

/-- `out[ch]` of a pixel with the addressing samples `r`, `g`, `b` (R108). -/
def pixelOut (c : Cfg) (L : Descriptor) (tbl : List (Nat × Elem)) (r g b : Byte) (ch : Nat) : Byte :=
  roundClip c (pixelBlends c L tbl r g b ch).acc

/-- `out[ch]` of pixel `(x, y)`: the three input reads and the pipeline (R107, R108). -/
def pixelResult (c : Cfg) (L : Descriptor) (pix : List Host.Cell) (tbl : List (Nat × Elem)) (y x ch : Nat) : Byte :=
  pixelOut c L tbl (Memory.read pix (sampleAddr L .input y x 0)) (Memory.read pix (sampleAddr L .input y x 1))
    (Memory.read pix (sampleAddr L .input y x 2)) ch

/-- The write-back of some bands of pixel `(x, y)`, each with the given sample (R109). -/
def writeBands (L : Descriptor) (y x : Nat) (out : Nat → Byte) (bands : List Nat) (pix : List Host.Cell) :
    List Host.Cell :=
  bands.foldl (fun m ch => Memory.write m (sampleAddr L .output y x ch) (out ch)) pix

/-! ### The steps -/

/-- The pixels `(y, x)` of an image, in row-major order. -/
def pixels (L : Descriptor) : List (Nat × Nat) :=
  (List.range L.H).flatMap fun y => (List.range L.W).map fun x => (y, x)

/-- The write-back of every output byte of a job: the byte at address `a` becomes `out a` (20_memory.md R59). -/
def writeOutput (L : Descriptor) (out : Nat → Byte) (pix : List Host.Cell) : List Host.Cell :=
  (pixels L).foldl
    (fun m p => writeBands L p.1 p.2 (fun ch => out (sampleAddr L .output p.1 p.2 ch)) (List.range L.tc) m) pix

/-- What band `ch` of pixel `(x, y)` receives: the pixel's result (R108, R109), or any value once the host has broken
its duties towards the job (93_implementation_defined.md U6; log 18). -/
def State.pixelByte (s : State) (j : Job) (y x ch : Nat) : Byte :=
  if j.disturbed then Config.openByte s.draws (sampleAddr j.latched .output y x ch)
  else pixelResult s.cfg j.latched s.pix s.tbl y x ch

/-- The pixel step on row `y` of a job whose cursor there is `x`: reads, arithmetic, the write of the first `tc`
bands, and the cursor advanced by 1 (R106 to R110). -/
def State.pixelStep (s : State) (j : Job) (y x : Nat) : State :=
  { s with
    pix := writeBands j.latched y x (s.pixelByte j y x) (List.range j.latched.tc) s.pix
    job := some { j with cur := j.cur.set y (x + 1) }
    draws := if j.disturbed then s.draws + 1 else s.draws }

/-- The completion step: DONE; `L` and the cursors cease to exist (R111). -/
def State.completionStep (s : State) : State := { s with state := .done, err := .noError, job := none }

/-- The cursor of row `y`, when the row exists and is not finished: the pixel step is enabled there (R106). -/
def Job.enabledAt (j : Job) (y : Nat) : Option Nat :=
  match j.cur[y]? with
  | some x => if x < j.latched.W then some x else none
  | none => none

/-- The least unfinished row, among cursors that start at row `y`, with its cursor. -/
def leastUnfinished (W : Nat) : Nat → List Nat → Option (Nat × Nat)
  | _, [] => none
  | y, x :: rest => if x < W then some (y, x) else leastUnfinished W (y + 1) rest

/-- The pixel that the reference schedule takes next: row-major order (R106). -/
def Job.nextPixel (j : Job) : Option (Nat × Nat) := leastUnfinished j.latched.W 0 j.cur

/-- A step of the sampler (R106, R111). `some y` is the pixel step of row `y`, `none` the step of the reference
schedule. A step that is not enabled is no step: nothing changes (log 8). -/
def State.samplerStep (s : State) (row : Option Nat) : State :=
  match s.state, s.job, row with
  | .busy, some j, some y =>
    match j.enabledAt y with
    | some x => s.pixelStep j y x
    | none => s
  | .busy, some j, none =>
    match j.nextPixel with
    | some (y, x) => s.pixelStep j y x
    | none => s.completionStep
  | _, _, _ => s

/-! ### The start of a job -/

/-- The start (R105): the descriptor is latched, the scale constants are computed, every cursor is 0, STATUS is
BUSY with no error. No memory is touched. -/
def State.startJob (s : State) : State :=
  { s with
    state := .busy
    err := .noError
    scale0 := BitVec.ofNat 32 (scaleConst s.cfg (s.desc.size .axis0))
    scale1 := BitVec.ofNat 32 (scaleConst s.cfg (s.desc.size .axis1))
    scale2 := BitVec.ofNat 32 (scaleConst s.cfg (s.desc.size .axis2))
    scaleWritten := true
    job := some { latched := s.desc, cur := List.replicate s.desc.H 0, disturbed := false } }

/-! ### The reset event -/

/-- PIX after a reset that falls inside write-backs (70_reset_and_hazards.md R211): for each named row with a pixel
in flight, the named bands below `tc` hold the new bytes, `out y x ch`. -/
def tornWrites (j : Job) (out : Nat → Nat → Nat → Byte) (torn : List (Nat × List Nat)) (pix : List Host.Cell) :
    List Host.Cell :=
  torn.foldl
    (fun m p =>
      match j.enabledAt p.1 with
      | some x => writeBands j.latched p.1 x (out p.1 x) (p.2.filter (· < j.latched.tc)) m
      | none => m)
    pix

/-- The reset event (R210, R211; 10_state.md R37): every piece of block state takes its reset value; PIX keeps what
the abandoned job had written (the new bytes of pixels in flight are computed from the memory before the reset), TBL
is untouched. What is not the block's (the configuration, the moves still to
come, the data last returned to the host) stays. The unwritten registers hold new free values (log 17). -/
def State.resetEvent (s : State) (torn : List (Nat × List Nat)) : State :=
  { State.resetWith s.cfg with
    pix := (match s.state, s.job with
      | .busy, some j => tornWrites j (s.pixelByte j) torn s.pix
      | _, _ => s.pix)
    tbl := s.tbl
    moves := s.moves
    readData := s.readData
    resets := s.resets + 1
    draws := s.draws + 1 }

end Sys2Proof.Machine
end

