-- ==== Sys2Proof/Machine/Commands.lean ====
section
/-! DEFINITION. The meanings of the commands: the sampler's reaction to a CMD write, atomic with it
(10_state.md R21; 40_transform_command.md). -/

namespace Sys2Proof.Machine

/-- NOP: nothing, in every STATE (R100). -/
def execNop (s : State) : Host.Outcome State Fault Refusal := .next s

/-- XFORM (R101): ignored while BUSY; else P1, the validation with its error entry, P2 to P5, the start. -/
def execXform (s : State) : Host.Outcome State Fault Refusal :=
  if s.state = .busy then .next s
  else if !s.written.allSet then .refused .descriptorUnwritten
  else
    match validate s.desc with
    | .noError =>
      match precondition s.cfg s.desc with
      | some r => .refused r
      | none => .next s.startJob
    | e => .next (s.enterError e)

/-- ACK (R112): from DONE or FAILED to IDLE; nothing in IDLE and in BUSY. -/
def execAck (s : State) : Host.Outcome State Fault Refusal :=
  match s.state with
  | .done => .next s.returnToIdle
  | .failed => .next s.returnToIdle
  | .idle => .next s
  | .busy => .next s

end Sys2Proof.Machine
end

