-- ==== Sys2Proof/Machine/Dispatch.lean ====
section
/-! DEFINITION. One arm per command. -/

namespace Sys2Proof.Machine

/-- The reaction to a command (40_transform_command.md). -/
def exec (i : Instr) (s : State) : Host.Outcome State Fault Refusal :=
  match i with
  | .nop => Sys2Proof.Machine.execNop s
  | .xform => Sys2Proof.Machine.execXform s
  | .ack => Sys2Proof.Machine.execAck s

end Sys2Proof.Machine
end

