-- ==== Sys2Proof/Machine/HostPort.lean ====
section
/-! DEFINITION. The moves of the host, the sampler and the platform (10_state.md R20, R21). -/

namespace Sys2Proof.Machine

/-- A write of CMD: the reaction to the command the word selects; a reserved word acts as NOP (30_encoding.md R82,
R84). -/
def State.writeCmd (s : State) (w : Word) : Host.Outcome State Fault Refusal :=
  match decode w with
  | .ok i => exec i s
  | .error (.reserved _) => .next s

/-- `RegWrite(off, data)` (30_encoding.md R81): a write of a read-only register is ignored, an access outside the
interface refused (R85). -/
def State.regWrite (s : State) (off : Nat) (data : Word) : Host.Outcome State Fault Refusal :=
  match Reg.ofOffset off with
  | some .cmd => s.writeCmd data
  | some (.desc r) => .next (s.writeDesc r data)
  | some .status => .next s
  | some .params => .next s
  | some (.scale _) => .next s
  | none => .refused (.outsideRegInterface off)

/-- `RegRead(off)` (30_encoding.md R81, R85). -/
def State.regRead (s : State) (off : Nat) : Host.Outcome State Fault Refusal :=
  match Reg.ofOffset off with
  | some r => .next (s.returnToHost (s.readReg r))
  | none => .refused (.outsideRegInterface off)

/-- The descriptor of the running job, while BUSY. -/
def State.running (s : State) : Option Descriptor :=
  match s.state, s.job with
  | .busy, some j => some j.latched
  | _, _ => none

/-- The host keeps its duties when it stores to the PIX byte: it is no byte that a running job reads or writes
(20_memory.md R64). -/
def State.mayWritePix (s : State) (a : Nat) : Bool :=
  match s.running with
  | some L => !jobReads L a && !jobWrites L a
  | none => true

/-- The PIX byte has a defined value for the host: it is no byte that a running job writes (20_memory.md R64). That the
completion step, and not the STATUS read that first returns DONE, ends this is the model's choice: 70_reset_and_hazards.md
R216 promises nothing before that read (DEDUCED from 40_transform_command.md R111, unsafe, log 19). -/
def State.mayReadPix (s : State) (a : Nat) : Bool :=
  match s.running with
  | some L => !jobWrites L a
  | none => true

/-- The host keeps its duties when it stores to the TBL element: it is no element of a running job's table
(20_memory.md R64). -/
def State.mayWriteTbl (s : State) (o : Nat) : Bool :=
  match s.running with
  | some L => !(o < tableLen L)
  | none => true

/-- What a store that breaks the host's duties does to the running job, beside the store: every output byte of the job
holds any value from then on (93_implementation_defined.md U6). Nothing detects the breach (70_reset_and_hazards.md
R214): the job goes on (log 18). -/
def State.disturb (s : State) : State :=
  match s.state, s.job with
  | .busy, some j =>
    { s with
      pix := writeOutput j.latched (Config.openByte s.draws) s.pix
      job := some { j with disturbed := true }
      draws := s.draws + 1 }
  | _, _ => s

/-- A load of an output byte of the running job returns any value (70_reset_and_hazards.md R214, R216; log 18; for a load
after the completion step see log 19). -/
def State.returnOpenByte (s : State) (a : Nat) : State :=
  { s with readData := (Config.openByte s.draws a).setWidth 32, draws := s.draws + 1 }

/-- PIX with the byte stored. -/
def State.storePix (s : State) (a : Nat) (v : Byte) : State := { s with pix := Memory.write s.pix a v }

/-- TBL with the element stored. -/
def State.storeTbl (s : State) (o : Nat) (v : Elem) : State := { s with tbl := Memory.write s.tbl o v }

/-- The host stores a byte in PIX (10_state.md R21; 20_memory.md R50, R64). -/
def State.pixWrite (s : State) (a : Nat) (v : Byte) : Host.Outcome State Fault Refusal :=
  if 2 ^ s.cfg.addrBits ≤ a then .fault (.noSuchPixByte a)
  else .next (if s.mayWritePix a then s.storePix a v else (s.storePix a v).disturb)

/-- The host loads a byte of PIX, zero-extended (10_state.md R21; 20_memory.md R50, R64; log 7). -/
def State.pixRead (s : State) (a : Nat) : Host.Outcome State Fault Refusal :=
  if 2 ^ s.cfg.addrBits ≤ a then .fault (.noSuchPixByte a)
  else .next (if s.mayReadPix a then s.returnToHost ((Memory.read s.pix a).setWidth 32) else s.returnOpenByte a)

/-- The host stores an element in TBL (10_state.md R21; 20_memory.md R53, R64). -/
def State.tblWrite (s : State) (o : Nat) (v : Elem) : Host.Outcome State Fault Refusal :=
  if s.cfg.tblCapacity ≤ o then .fault (.noSuchTblElement o)
  else .next (if s.mayWriteTbl o then s.storeTbl o v else (s.storeTbl o v).disturb)

/-- The host loads an element of TBL, sign-extended (10_state.md R21; 20_memory.md R53; log 7). -/
def State.tblRead (s : State) (o : Nat) : Host.Outcome State Fault Refusal :=
  if s.cfg.tblCapacity ≤ o then .fault (.noSuchTblElement o)
  else .next (s.returnToHost ((Memory.read s.tbl o).signExtend 32))

/-- POLL (30_encoding.md R87): a read of STATUS; while it returns BUSY the poll is repeated, after a step of the
sampler (log 8). -/
def State.poll (s : State) : State :=
  let s' := s.returnToHost (statusWord s.state s.err)
  if s.state = .busy then s'.withMoves (.sampler none :: .poll :: s'.moves) else s'

/-- One move, in the state that no longer lists it. -/
def State.runMove (s : State) (m : Move) : Host.Outcome State Fault Refusal :=
  match m with
  | .regWrite off data => s.regWrite off data
  | .regRead off => s.regRead off
  | .regNarrow off _ => .refused (.outsideRegInterface off)
  | .pixWrite a v => s.pixWrite a v
  | .pixRead a => s.pixRead a
  | .tblWrite o v => s.tblWrite o v
  | .tblRead o => s.tblRead o
  | .poll => .next s.poll
  | .sampler row => .next (s.samplerStep row)
  | .reset torn => .next (s.resetEvent torn)

/-- What happens next: the first of the moves still to come, or else a step of the sampler by the reference schedule
(40_transform_command.md R106; 70_reset_and_hazards.md R222). With no move pending and no job nothing happens
(R210; log 8). -/
def State.advance (s : State) : Host.Outcome State Fault Refusal :=
  match s.moves with
  | [] => .next (s.samplerStep none)
  | m :: rest => (s.withMoves rest).runMove m

/-- The state in which the next move is the host's write of `w` to CMD. -/
def State.withCommand (s : State) (w : Word) : State := s.withMoves (.regWrite (Reg.offset .cmd) w :: s.moves)

end Sys2Proof.Machine
end

