-- ==== Sys2Proof/Machine/HostProgram.lean ====
section
/-! DEFINITION. The host programs of 30_encoding.md R86 and R87: statements as lists of moves. -/

namespace Sys2Proof.Machine

/-- A host program: the transactions it makes, in order (R86). -/
abbrev Program := List Move

/-- `WR name, value` (R86). -/
def Program.wr (r : Reg) (v : Word) : Program := [.regWrite r.offset v]

/-- `RD name` (R86). -/
def Program.rd (r : Reg) : Program := [.regRead r.offset]

/-- `NOP`, `XFORM`, `ACK`: a write of the command's word to CMD (R87). -/
def Program.command (i : Instr) : Program := Program.wr .cmd (encode i)

/-- `POLL` (R87). -/
def Program.poll : Program := [.poll]

/-- `IMAGE_IN type, bands, pstride, rstride, base` (R87). -/
def Program.imageIn (type bands pstride rstride base : Word) : Program :=
  Program.wr (.desc .inType) type ++ Program.wr (.desc .inBands) bands ++ Program.wr (.desc .inPstride) pstride ++
    Program.wr (.desc .inRstride) rstride ++ Program.wr (.desc .inBase) base

/-- `IMAGE_OUT type, bands, pstride, rstride, base` (R87). -/
def Program.imageOut (type bands pstride rstride base : Word) : Program :=
  Program.wr (.desc .outType) type ++ Program.wr (.desc .outBands) bands ++ Program.wr (.desc .outPstride) pstride ++
    Program.wr (.desc .outRstride) rstride ++ Program.wr (.desc .outBase) base

/-- `TABLE tc, s1, s2, s3` (R87). -/
def Program.table (tc s1 s2 s3 : Word) : Program :=
  Program.wr (.desc .tableChannels) tc ++ Program.wr (.desc .size1D) s1 ++ Program.wr (.desc .size2D) s2 ++
    Program.wr (.desc .size3D) s3

/-- `DIM w, h` (R87). -/
def Program.dim (w h : Word) : Program := Program.wr (.desc .width) w ++ Program.wr (.desc .height) h

end Sys2Proof.Machine
end

