-- ==== Sys2Proof/Safety.lean ====
section
/-! DEFINITION. What a good state is, and what a job must leave behind, in the terms the claims use. -/

namespace Sys2Proof.Machine

/-- The no-hazard precondition word for word (20_memory.md R61): for pixel positions `(x, y) ≠ (u, v)`, what the
first writes is disjoint from what the second reads and from what the second writes. -/
def NoHazard (d : Descriptor) : Prop :=
  ∀ y x v u : Nat, y < d.H → x < d.W → v < d.H → u < d.W → (y, x) ≠ (v, u) →
    (∀ c b : Nat, c < d.tc → b < 3 → sampleAddr d .output y x c ≠ sampleAddr d .input v u b) ∧
      (∀ c b : Nat, c < d.tc → b < d.tc → sampleAddr d .output y x c ≠ sampleAddr d .output v u b)

/-- The address-range condition word for word (20_memory.md R60). -/
def AddressesInside (c : Cfg) (d : Descriptor) : Prop :=
  0 < d.W → 0 < d.H →
    d.base .input + (d.H - 1) * d.rstride .input + (d.W - 1) * d.pstride .input + 2 < 2 ^ c.addrBits ∧
      d.base .output + (d.H - 1) * d.rstride .output + (d.W - 1) * d.pstride .output + (d.tc - 1) < 2 ^ c.addrBits

/-- The grid-size condition P2 (40_transform_command.md R104). -/
def GridSizesLegal (d : Descriptor) : Prop := ∀ a : Axis, 2 ≤ d.size a ∧ d.size a ≤ 65

/-- `a` is the address of a byte that a job with descriptor `L` writes (20_memory.md R59). -/
def IsWritten (L : Descriptor) (a : Nat) : Prop :=
  ∃ y x ch : Nat, y < L.H ∧ x < L.W ∧ ch < L.tc ∧ a = sampleAddr L .output y x ch

/-- `a` is the address of a byte that a job with descriptor `L` reads (20_memory.md R59). -/
def IsRead (L : Descriptor) (a : Nat) : Prop :=
  ∃ y x b : Nat, y < L.H ∧ x < L.W ∧ b < 3 ∧ a = sampleAddr L .input y x b

/-- `o` is the offset of an element of the table of a job with descriptor `L` (20_memory.md R54). -/
def InTable (L : Descriptor) (o : Nat) : Prop := o < L.tc * L.size .axis0 * L.size .axis1 * L.size .axis2

/-- The move is a store of the host that breaks its duties towards a running job with descriptor `L` (20_memory.md
R64). -/
def BreaksDuty (L : Descriptor) (m : Move) : Prop :=
  (∃ a v, m = .pixWrite a v ∧ (IsRead L a ∨ IsWritten L a)) ∨ ∃ o e, m = .tblWrite o e ∧ InTable L o

/-- `after` is the PIX memory that a job with descriptor `L` makes of `before` (40_transform_command.md R113). -/
def JobResult (c : Cfg) (L : Descriptor) (tbl : List (Nat × Elem)) (before after : List Host.Cell) : Prop :=
  (∀ y x ch : Nat, y < L.H → x < L.W → ch < L.tc →
    Memory.read after (sampleAddr L .output y x ch) = pixelResult c L before tbl y x ch) ∧
  (∀ a : Nat, ¬ IsWritten L a → Memory.read after a = Memory.read before a)

/-- How far a running job has come, seen from the memory `before` in which it was accepted: the pixels left of each
cursor are written with their results, the inputs of the others are still as they were (10_state.md R31, R38). -/
def JobProgress (before : List Host.Cell) (s : State) (j : Job) : Prop :=
  (∀ y x n ch : Nat, j.cur[y]? = some n → x < n → ch < j.latched.tc →
    Memory.read s.pix (sampleAddr j.latched .output y x ch) = pixelResult s.cfg j.latched before s.tbl y x ch) ∧
  (∀ y x n b : Nat, j.cur[y]? = some n → n ≤ x → x < j.latched.W → b < 3 →
    Memory.read s.pix (sampleAddr j.latched .input y x b) = Memory.read before (sampleAddr j.latched .input y x b))

/-- Only the sampler moves. -/
def SamplerOnly (ms : List Move) : Prop := ∀ m ∈ ms, ∃ row, m = .sampler row

/-- What holds of a running job (10_state.md R38 (c), R30). -/
structure JobInv (s : State) (j : Job) : Prop where
  /-- `L` passed the validation -/
  validated : validate j.latched = .noError
  /-- `L` met the preconditions P2 to P5 -/
  preconditions : precondition s.cfg j.latched = none
  /-- `L` equals the descriptor registers for the whole job (R30) -/
  latchedIsDesc : j.latched = s.desc
  /-- P1: every descriptor register has been written -/
  allWritten : s.written.allSet = true
  /-- there is one cursor for each row (R31) -/
  rows : j.cur.length = j.latched.H
  /-- every cursor is at most WIDTH (R31) -/
  cursors : ∀ x ∈ j.cur, x ≤ j.latched.W
  /-- SCALE0..2 are the scale constants of `L` -/
  scales : s.scaleWritten = true ∧ ∀ a : Axis, (s.scale a).toNat = scaleConst s.cfg (j.latched.size a)

/-- The invariant of the machine. -/
structure State.Inv (s : State) : Prop where
  /-- the configuration is hardware (00_scope.md R7) -/
  cfgOk : s.cfg.wellFormed = true
  /-- PIX is in canonical form -/
  pixCanonical : Memory.wf s.pix = true
  /-- TBL is in canonical form -/
  tblCanonical : Memory.wf s.tbl = true
  /-- PIX lists no address beyond its space (20_memory.md R50) -/
  pixInside : Memory.below (2 ^ s.cfg.addrBits) s.pix = true
  /-- TBL lists no offset beyond its space (20_memory.md R53) -/
  tblInside : Memory.below s.cfg.tblCapacity s.tbl = true
  /-- an error code exactly in FAILED (10_state.md R38 (a)) -/
  errIffFailed : s.err ≠ .noError ↔ s.state = .failed
  /-- `L` and the cursors exist exactly in BUSY (R30, R31) -/
  jobIffBusy : s.job.isSome = true ↔ s.state = .busy
  /-- the running job is sound (R38 (c)) -/
  jobOk : ∀ j, s.job = some j → JobInv s j

/-- `n` steps of the machine. -/
abbrev runSteps (n : Nat) (s : State) : Host.Outcome State Fault Refusal := Host.Core.run Sys2Proof.core n s

/-- An XFORM starts a job in this state: it is accepted, every descriptor register has been written (P1), no check
of the validation fires and no precondition fails (40_transform_command.md R101 to R105). -/
def State.StartsJob (s : State) : Prop :=
  s.state ≠ .busy ∧ (∀ r, s.written.get r = true) ∧ validate s.desc = .noError ∧ precondition s.cfg s.desc = none

end Sys2Proof.Machine
end

