-- ==== Sys2Proof/Certificates/Slice0/Obligations.lean ====
section
/-! DEFINITION. The statements for the provers. Each docstring names the rule or the section of the spec. -/

open Sys2Proof Sys2Proof.Machine

/-! ### Encodings and the register map -/

/-- R82: the three command words, compared on all 32 bits; every other word is reserved. -/
def Obligations.CommandWordsDecode : Prop :=
  decode 0x00000000#32 = .ok .nop ∧ decode 0x00000001#32 = .ok .xform ∧ decode 0x00000002#32 = .ok .ack ∧
    ∀ w : Word, w ≠ 0x00000000#32 → w ≠ 0x00000001#32 → w ≠ 0x00000002#32 → decode w = .error (.reserved w)

/-- Decode and encode agree, both ways (30_encoding.md section 2). -/
def Obligations.DecodeAndEncodeAgree : Prop :=
  (∀ i : Instr, i.wellFormed = true → decode (encode i) = .ok i) ∧
    ∀ (w : Word) (i : Instr), decode w = .ok i → w = encode i

/-- R84: a reserved command word changes no register, no memory and no job, in every STATE. -/
def Obligations.ReservedWordActsAsNop : Prop :=
  ∀ (s : State) (w : Word) (rest : List Move), w ≠ 0x00000000#32 → w ≠ 0x00000001#32 → w ≠ 0x00000002#32 →
    s.moves = .regWrite 0x00 w :: rest → step s = .next { s with moves := rest }

/-- R23: a write of CMD is the command its word selects; a read of CMD returns 0. A step whose next move is that
write runs exactly the decoded instruction, in the state that no longer lists the move. -/
def Obligations.CommandWriteRunsTheCommand : Prop :=
  ∀ (s : State) (rest : List Move),
    (∀ (w : Word) (i : Instr), decode w = .ok i → s.moves = .regWrite 0x00 w :: rest →
      step s = exec i { s with moves := rest }) ∧
    (s.moves = .regRead 0x00 :: rest → step s = .next { s with moves := rest, readData := 0#32 })

/-- A word placed as the next command is the very next thing that runs (log 6). -/
def Obligations.PlacedCommandRunsNext : Prop :=
  ∀ (s : State) (i : Instr), step (s.withFetchWord 32 (encode i).toNat) = exec i s

/-- R22: the 22 registers, each at its offset and nowhere else; WO reads 0, RO ignores writes, RW takes them and
gives them back; any other offset and any narrower access is outside the interface. -/
def Obligations.RegisterMap : Prop :=
  (Reg.ofOffset 0x00 = some .cmd ∧ Reg.ofOffset 0x04 = some .status ∧ Reg.ofOffset 0x08 = some .params ∧
    Reg.ofOffset 0x0C = some (.desc .tableChannels) ∧ Reg.ofOffset 0x10 = some (.desc .size1D) ∧
    Reg.ofOffset 0x14 = some (.desc .size2D) ∧ Reg.ofOffset 0x18 = some (.desc .size3D) ∧
    Reg.ofOffset 0x1C = some (.desc .width) ∧ Reg.ofOffset 0x20 = some (.desc .height) ∧
    Reg.ofOffset 0x24 = some (.desc .inType) ∧ Reg.ofOffset 0x28 = some (.desc .inBands) ∧
    Reg.ofOffset 0x2C = some (.desc .inPstride) ∧ Reg.ofOffset 0x30 = some (.desc .inRstride) ∧
    Reg.ofOffset 0x34 = some (.desc .inBase) ∧ Reg.ofOffset 0x38 = some (.desc .outType) ∧
    Reg.ofOffset 0x3C = some (.desc .outBands) ∧ Reg.ofOffset 0x40 = some (.desc .outPstride) ∧
    Reg.ofOffset 0x44 = some (.desc .outRstride) ∧ Reg.ofOffset 0x48 = some (.desc .outBase) ∧
    Reg.ofOffset 0x4C = some (.scale .axis0) ∧ Reg.ofOffset 0x50 = some (.scale .axis1) ∧
    Reg.ofOffset 0x54 = some (.scale .axis2)) ∧
  (∀ off : Nat, (off % 4 ≠ 0 ∨ 0x54 < off) → Reg.ofOffset off = none) ∧
  (∀ (s : State) (off n : Nat) (v : Word) (rest : List Move),
    (Reg.ofOffset off = none →
      s.moves = .regWrite off v :: rest ∨ s.moves = .regRead off :: rest →
      step s = .refused (.outsideRegInterface off)) ∧
    (s.moves = .regNarrow off n :: rest → step s = .refused (.outsideRegInterface off))) ∧
  ∀ (s : State) (off : Nat) (r : Reg) (v : Word) (rest : List Move), Reg.ofOffset off = some r →
    (r = .cmd → s.moves = .regRead off :: rest → step s = .next { s with moves := rest, readData := 0#32 }) ∧
    (r = .status ∨ r = .params ∨ (∃ a, r = .scale a) → s.moves = .regWrite off v :: rest →
      step s = .next { s with moves := rest }) ∧
    (∀ q, r = .desc q → s.state ≠ .busy → s.moves = .regWrite off v :: rest →
      ∃ t, step s = .next t ∧ t.desc.get q = v ∧ t.written.get q = true) ∧
    (∀ q, r = .desc q → s.written.get q = true → s.moves = .regRead off :: rest →
      step s = .next { s with moves := rest, readData := s.desc.get q })

/-- R85: accesses outside the interface are refused, writes of read-only registers ignored, CMD reads 0, the
reserved bits of STATUS and PARAMS read as 0, and a descriptor register has no reserved bits: all 32 bits written
are held. -/
def Obligations.OutsideAccessesRefused : Prop :=
  ∀ (s : State) (off n : Nat) (v : Word) (rest : List Move),
    ((off % 4 ≠ 0 ∨ 0x54 < off) →
      (s.moves = .regWrite off v :: rest → step s = .refused (.outsideRegInterface off)) ∧
      (s.moves = .regRead off :: rest → step s = .refused (.outsideRegInterface off))) ∧
    (s.moves = .regNarrow off n :: rest → step s = .refused (.outsideRegInterface off)) ∧
    (off ∈ [0x04, 0x08, 0x4C, 0x50, 0x54] → s.moves = .regWrite off v :: rest →
      step s = .next { s with moves := rest }) ∧
    (s.moves = .regRead 0x00 :: rest → step s = .next { s with moves := rest, readData := 0#32 }) ∧
    (s.moves = .regRead 0x04 :: rest → ∃ t, step s = .next t ∧ t.readData.toNat / 2 ^ 4 = 0) ∧
    (s.cfg.wellFormed = true → s.moves = .regRead 0x08 :: rest →
      ∃ t, step s = .next t ∧ t.readData.toNat / 2 ^ 24 = 0) ∧
    (∀ q, off = Reg.offset (.desc q) → s.state ≠ .busy → s.moves = .regWrite off v :: rest →
      ∃ t, step s = .next t ∧ t.desc.get q = v)

/-! ### Registers -/

/-- R24: the fields of STATUS; a read has no effect but the data returned; ERR is not NONE exactly in FAILED;
a job is running exactly in BUSY. -/
def Obligations.StatusRegisterFields : Prop :=
  ∀ (s : State) (rest : List Move), s.moves = .regRead 0x04 :: rest →
    ∃ w : Word, step s = .next { s with moves := rest, readData := w } ∧
      w.toNat % 4 = (match s.state with | .idle => 0 | .busy => 1 | .done => 2 | .failed => 3) ∧
      w.toNat / 4 % 4 = (match s.err with | .noError => 0 | .invalidArgument => 1 | .modeMismatch => 2) ∧
      w.toNat / 16 = 0 ∧
      (s.Inv → (w.toNat / 4 % 4 ≠ 0 ↔ w.toNat % 4 = 3) ∧ (w.toNat % 4 = 1 ↔ s.job.isSome = true))

/-- R26: the fields of PARAMS, its value at the default configuration, and that it is constant. -/
def Obligations.ParamsRegisterFields : Prop :=
  (∀ (s : State) (rest : List Move), s.cfg.wellFormed = true → s.moves = .regRead 0x08 :: rest →
    ∃ w : Word, step s = .next { s with moves := rest, readData := w } ∧
      w.toNat % 256 = s.cfg.precisionBits ∧ w.toNat / 256 % 256 = s.cfg.scaleBits ∧
      w.toNat / 65536 % 256 = s.cfg.shiftBits ∧ w.toNat / 16777216 = 0 ∧
      (s.cfg = Cfg.standard → w = 0x000F1206#32)) ∧
  ∀ s t : State, step s = .next t → paramsWord t.cfg = paramsWord s.cfg

/-- A descriptor register takes any 32-bit value and reads back unchanged; no other register changes
(10_state.md section 2, the paragraph on the sixteen descriptor registers). -/
def Obligations.DescriptorWriteReadsBack : Prop :=
  ∀ (s : State) (r : DReg) (v : Word) (rest : List Move), s.state ≠ .busy →
    s.moves = .regWrite (Reg.offset (.desc r)) v :: .regRead (Reg.offset (.desc r)) :: rest →
    ∃ t, runSteps 2 s = .next t ∧ t.readData = v ∧ t.desc.get r = v ∧ t.written.get r = true ∧
      (∀ q, q ≠ r → t.desc.get q = s.desc.get q ∧ t.written.get q = s.written.get q) ∧
      t = { s with desc := t.desc, written := t.written, moves := rest, readData := v }

/-- While BUSY every REG write is ignored; a read of any register completes in every STATE and returns the current
value, and changes nothing else; in the other three states a descriptor write takes effect at once (10_state.md section
2, R29). That the read of a register not written since reset completes is the model's choice, log 17. -/
def Obligations.WritesWhileBusyAreDropped : Prop :=
  ∀ (s : State) (r : Reg) (v : Word) (rest : List Move),
    (s.state = .busy → s.moves = .regWrite r.offset v :: rest → step s = .next { s with moves := rest }) ∧
    (∀ q, r = .desc q → s.state ≠ .busy → s.moves = .regWrite r.offset v :: rest →
      step s = .next
        { s with desc := s.desc.set q v, written := s.written.set q true, moves := rest }) ∧
    (s.moves = .regRead r.offset :: rest → ∃ w, step s = .next { s with moves := rest, readData := w }) ∧
    (∀ q, r = .desc q → s.written.get q = true → s.moves = .regRead r.offset :: rest →
      step s = .next { s with moves := rest, readData := s.desc.get q }) ∧
    (∀ a, r = .scale a → s.scaleWritten = true → s.moves = .regRead r.offset :: rest →
      step s = .next { s with moves := rest, readData := s.scale a }) ∧
    (s.moves = .regRead r.offset :: rest →
      (r = .cmd → step s = .next { s with moves := rest, readData := 0#32 }) ∧
      (r = .status → step s = .next { s with moves := rest, readData := statusWord s.state s.err }) ∧
      (r = .params → step s = .next { s with moves := rest, readData := paramsWord s.cfg }))

/-- Who may change a register, and what a read of it would return (10_state.md section 2, R28). That what an unwritten
register would return changes only by a write or a reset is the model's choice, log 17. -/
def Obligations.RegistersChangeOnlyBy : Prop :=
  ∀ s t : State, step s = .next t →
    ((t.desc ≠ s.desc ∨ ∃ q, t.readReg (.desc q) ≠ s.readReg (.desc q)) →
      (∃ off v q rest, s.moves = .regWrite off v :: rest ∧ Reg.ofOffset off = some (.desc q) ∧ s.state ≠ .busy) ∨
        ∃ torn rest, s.moves = .reset torn :: rest) ∧
    ((t.state ≠ s.state ∨ t.err ≠ s.err) →
      (∃ w i rest, s.moves = .regWrite 0x00 w :: rest ∧ decode w = .ok i) ∨
        (s.state = .busy ∧ t.state = .done ∧ (s.moves = [] ∨ ∃ row rest, s.moves = .sampler row :: rest)) ∨
        ∃ torn rest, s.moves = .reset torn :: rest) ∧
    ((∃ a, t.scale a ≠ s.scale a ∨ t.readReg (.scale a) ≠ s.readReg (.scale a)) →
      (∃ rest, s.moves = .regWrite 0x00 0x00000001#32 :: rest) ∨ ∃ torn rest, s.moves = .reset torn :: rest) ∧
    (∀ off rest, s.moves = .regRead off :: rest → t = { s with moves := rest, readData := t.readData })

/-- R27: SCALE0..2 read as their scale constants; they are written, all three at once, only by an XFORM that passes
validation, with the constants of the descriptor, and otherwise change only by reset. -/
def Obligations.ScaleRegistersDescribeTheirJob : Prop :=
  ∀ s t : State, s.cfg.wellFormed = true → step s = .next t →
    ((t.scaleWritten ≠ s.scaleWritten ∨ ∃ a, t.scale a ≠ s.scale a) →
      (∃ torn rest, s.moves = .reset torn :: rest) ∨
        (∃ rest, s.moves = .regWrite 0x00 0x00000001#32 :: rest) ∧ s.state ≠ .busy ∧
          validate s.desc = .noError ∧ t.scaleWritten = true ∧
          ∀ a, (t.scale a).toNat = (s.desc.size a - 1) * 2 ^ s.cfg.scaleBits / 255) ∧
    (∀ a rest, s.scaleWritten = true → s.moves = .regRead (Reg.offset (.scale a)) :: rest →
      t.readData = s.scale a)

/-- A read of a register whose value is unspecified completes and changes nothing else; the data returned is a free
value, fixed by nothing (10_state.md section 4, the paragraph under the table of reset values: "it must not return 0 or
any fixed value"). That the read completes, and that a register keeps its value until it is written or reset, is the
model's choice, log 17. -/
def Obligations.UnwrittenRegistersReadAFreeValue : Prop :=
  ∀ (s : State) (rest : List Move),
    (∀ q, s.written.get q = false → s.moves = .regRead (Reg.offset (.desc q)) :: rest →
      step s = .next
        { s with moves := rest, readData := Config.unwrittenRegister s.resets (Reg.number (.desc q)) }) ∧
    (∀ a, s.scaleWritten = false → s.moves = .regRead (Reg.offset (.scale a)) :: rest →
      step s = .next
        { s with moves := rest, readData := Config.unwrittenRegister s.resets (Reg.number (.scale a)) })

/-! ### Commands -/

/-- R100: NOP completes in every state and changes nothing. -/
def Obligations.NopChangesNothing : Prop := ∀ s : State, exec .nop s = .next s

/-- R112: ACK completes in every state: from DONE and FAILED to IDLE with no error; in IDLE and BUSY nothing. -/
def Obligations.AckReturnsToIdle : Prop :=
  ∀ s : State,
    (s.state = .done ∨ s.state = .failed → exec .ack s = .next { s with state := .idle, err := .noError }) ∧
    (s.state = .idle ∨ s.state = .busy → exec .ack s = .next s)

/-- R101: acceptance of XFORM and the order of what follows; the previous STATE and ERR have no influence. -/
def Obligations.XformAcceptance : Prop :=
  ∀ s : State,
    (s.state = .busy → exec .xform s = .next s) ∧
    (s.state ≠ .busy →
      ((∃ r, s.written.get r = false) → exec .xform s = .refused .descriptorUnwritten) ∧
      ((∀ r, s.written.get r = true) →
        (validate s.desc ≠ .noError →
          exec .xform s = .next { s with state := .failed, err := validate s.desc }) ∧
        (∀ e, validate s.desc = .noError → precondition s.cfg s.desc = some e → exec .xform s = .refused e) ∧
        (validate s.desc = .noError → precondition s.cfg s.desc = none →
          ∃ t, exec .xform s = .next t ∧ t.state = .busy ∧ t.err = .noError)) ∧
      ∀ st e, st ≠ .busy → exec .xform { s with state := st, err := e } = exec .xform s)

/-- R102, R189, R190: the three checks on unsigned 32-bit values, in order; the first that fires decides the error;
error entry changes STATE and ERR and nothing else, whatever the sizes and addresses are; with no check firing the
XFORM does not fail; the checks look at five registers only. -/
def Obligations.ValidationDecidesTheError : Prop :=
  (∀ s : State, s.state ≠ .busy → (∀ r, s.written.get r = true) →
    (s.desc.tableChannels ≠ 3#32 ∧ s.desc.tableChannels ≠ 4#32 →
      exec .xform s = .next { s with state := .failed, err := .invalidArgument }) ∧
    ((s.desc.tableChannels = 3#32 ∨ s.desc.tableChannels = 4#32) →
      (s.desc.inType ≠ 0#32 ∨ s.desc.outType ≠ 0#32 ∨ s.desc.inBands < 3#32 ∨
          s.desc.outBands < s.desc.tableChannels →
        exec .xform s = .next { s with state := .failed, err := .modeMismatch }) ∧
      (s.desc.inType = 0#32 → s.desc.outType = 0#32 → 3#32 ≤ s.desc.inBands →
          s.desc.tableChannels ≤ s.desc.outBands →
        (s.desc.tableChannels < s.desc.outBands ∧ s.desc.inBands < s.desc.outBands →
          exec .xform s = .next { s with state := .failed, err := .modeMismatch }) ∧
        (¬ (s.desc.tableChannels < s.desc.outBands ∧ s.desc.inBands < s.desc.outBands) →
          ∀ t, exec .xform s = .next t → t.state = .busy ∧ t.err = .noError)))) ∧
  ∀ d d' : Descriptor, d.tableChannels = d'.tableChannels → d.inType = d'.inType → d.outType = d'.outType →
    d.inBands = d'.inBands → d.outBands = d'.outBands → validate d = validate d'

/-- An error is raised by the XFORM command and by nothing else, before any pixel work and with no partial output; a
step of the sampler always completes (60_exceptions.md section 1, R185). That a step with no move pending, and a move of
the sampler, complete also where no step of the sampler is enabled is the model's choice, log 8; that they complete in a
job towards which the host has broken its duties is log 18. -/
def Obligations.OnlyXformRaisesAnError : Prop :=
  (∀ s t : State, step s = .next t → t.err ≠ .noError → t.err ≠ s.err →
    (t.err = .invalidArgument ∨ t.err = .modeMismatch) ∧
      ∃ rest, s.moves = .regWrite 0x00 0x00000001#32 :: rest ∧ s.state ≠ .busy ∧
        t = { s with moves := rest, state := .failed, err := t.err }) ∧
  ∀ (s : State), (s.moves = [] ∨ ∃ row rest, s.moves = .sampler row :: rest) →
    ∃ t, step s = .next t ∧ (t.err ≠ .noError → t.err = s.err)

/-- R104, R60, R61: P1 is checked first; after the validation has passed, an XFORM runs exactly when P2 to P5 hold,
each as the spec words it, and is refused otherwise. -/
def Obligations.XformRunsExactlyWhenInContract : Prop :=
  ∀ s : State, s.state ≠ .busy →
    (exec .xform s = .refused .descriptorUnwritten ↔ ∃ r, s.written.get r = false) ∧
    ((∀ r, s.written.get r = true) → validate s.desc = .noError →
      ((GridSizesLegal s.desc ∧
          s.desc.tc * s.desc.size .axis0 * s.desc.size .axis1 * s.desc.size .axis2 ≤ s.cfg.tblCapacity ∧
          AddressesInside s.cfg s.desc ∧ NoHazard s.desc) →
        ∃ t, exec .xform s = .next t) ∧
      (¬ (GridSizesLegal s.desc ∧
          s.desc.tc * s.desc.size .axis0 * s.desc.size .axis1 * s.desc.size .axis2 ≤ s.cfg.tblCapacity ∧
          AddressesInside s.cfg s.desc ∧ NoHazard s.desc) →
        ∃ e, exec .xform s = .refused e))

/-- The start of a job completes; what it sets, and that it sets nothing else; an empty image is a valid job whose
completion step is enabled at once (40_transform_command.md section 2, R105). That a step with no move pending is the
sampler's, here that completion step, is the model's choice, log 8. -/
def Obligations.XformStartsTheJob : Prop :=
  (∀ s : State, s.cfg.wellFormed = true → s.StartsJob →
    ∃ t, exec .xform s = .next t ∧ t.state = .busy ∧ t.err = .noError ∧ t.scaleWritten = true ∧
      (∀ a, (t.scale a).toNat = (s.desc.size a - 1) * 2 ^ s.cfg.scaleBits / 255) ∧
      (∃ cur, t.job = some { latched := s.desc, cur := cur, disturbed := false } ∧ cur.length = s.desc.H ∧
        ∀ y, y < s.desc.H → cur[y]? = some 0) ∧
      t = { s with
        state := t.state, err := t.err, scale0 := t.scale0, scale1 := t.scale1, scale2 := t.scale2,
        scaleWritten := t.scaleWritten, job := t.job } ∧
      (s.desc.W = 0 ∨ s.desc.H = 0 →
        step { t with moves := [] } = .next { t with moves := [], state := .done, job := none })) ∧
  ∀ (c : Cfg) (d : Descriptor), d.W = 0 ∨ d.H = 0 → p4 c d = true ∧ p5 d = true

/-- After an error no step of the sampler is enabled and nothing is retried; the host may rewrite descriptor registers
and issue XFORM again directly, or ACK to return STATUS to IDLE (60_exceptions.md section 2, R192). That a step with no
move pending, and a move of the sampler that is not enabled, answer the same state is the model's choice, log 8. -/
def Obligations.AfterAnError : Prop :=
  ∀ (s : State) (q : DReg) (v : Word) (row : Option Nat) (rest : List Move), s.state = .failed →
    (s.moves = [] → step s = .next s) ∧
    (s.moves = .sampler row :: rest → step s = .next { s with moves := rest }) ∧
    (s.moves = .regWrite (Reg.offset (.desc q)) v :: rest →
      step s = .next { s with desc := s.desc.set q v, written := s.written.set q true, moves := rest }) ∧
    (s.StartsJob → ∃ t, exec .xform s = .next t ∧ t.state = .busy ∧ t.err = .noError) ∧
    exec .ack s = .next { s with state := .idle, err := .noError }

/-- The frame of the commands: what no command changes, and what only a started XFORM changes
(40_transform_command.md sections 1, 2 and 4; 60_exceptions.md section 1). -/
def Obligations.CommandFrame : Prop :=
  ∀ (i : Instr) (s t : State), exec i s = .next t →
    t.cfg = s.cfg ∧ (∀ r, t.desc.get r = s.desc.get r ∧ t.written.get r = s.written.get r) ∧
    (∀ a, Memory.read t.pix a = Memory.read s.pix a) ∧ (∀ o, Memory.read t.tbl o = Memory.read s.tbl o) ∧
    t.moves = s.moves ∧ t.readData = s.readData ∧ t.resets = s.resets ∧ t.draws = s.draws ∧
    ((i ≠ .xform ∨ s.state = .busy ∨ t.err ≠ .noError) →
      t.scaleWritten = s.scaleWritten ∧ (∀ a, t.scale a = s.scale a) ∧ t.job = s.job) ∧
    (s.state = .busy → t = s) ∧ (i = .nop → t = s)

/-! ### The datapath -/

/-- R131: the scale constant is the exact product rounded toward zero, strictly below it; its range; examples. -/
def Obligations.ScaleConstantRoundsDown : Prop :=
  (∀ (c : Cfg) (size : Nat), c.wellFormed = true → 2 ≤ size → size ≤ 65 →
    255 * scaleConst c size < (size - 1) * 2 ^ c.scaleBits ∧
    (size - 1) * 2 ^ c.scaleBits < 255 * (scaleConst c size + 1) ∧
    (8 ≤ c.scaleBits → 1 ≤ 2 ^ c.scaleBits / 255 ∧ 2 ^ c.scaleBits / 255 ≤ scaleConst c size ∧
      scaleConst c size ≤ 64 * 2 ^ c.scaleBits / 255 ∧ 64 * 2 ^ c.scaleBits / 255 < 2 ^ (c.scaleBits - 1))) ∧
  scaleConst Cfg.standard 2 = 1028 ∧ scaleConst Cfg.standard 17 = 16448 ∧ scaleConst Cfg.standard 65 = 65793

/-- The fixed-point coordinate fits its 32 bits, with the bound of the spec's own inference under the heading of the
coordinate's range (41_coordinate_scaler.md R132, and R133, which the spec marks as derived). -/
def Obligations.CoordinateFitsItsWord : Prop :=
  ∀ (c : Cfg) (size : Nat) (v : Byte), c.wellFormed = true → 2 ≤ size → size ≤ 65 →
    idxFixed c size v = v.toNat * scaleConst c size ∧ idxFixed c size v ≤ 255 * scaleConst c size ∧
    idxFixed c size v < (size - 1) * 2 ^ c.scaleBits ∧ idxFixed c size v < 2 ^ (c.scaleBits + 6) ∧
    idxFixed c size v < 2 ^ 32

/-- R134: the grid index is the coordinate's integer part; the upper node of the cell always exists. -/
def Obligations.GridIndexLeavesAnUpperNode : Prop :=
  ∀ (c : Cfg) (size : Nat) (v : Byte), c.wellFormed = true → 2 ≤ size → size ≤ 65 →
    (scaleAxis c size v).index = v.toNat * scaleConst c size / 2 ^ c.scaleBits ∧
    (scaleAxis c size v).index ≤ size - 2 ∧ (scaleAxis c size v).index ≤ 63 ∧
    (scaleAxis c size v).index + 1 ≤ size - 1

/-- R135: the fraction is the top SHIFT_BITS of the coordinate's SCALE_BITS low bits, without rounding; it is 0 for
the input 0, and at the default configuration for no other. -/
def Obligations.FractionIsTheTopBits : Prop :=
  (∀ (c : Cfg) (size : Nat) (v : Byte), c.wellFormed = true → 2 ≤ size → size ≤ 65 →
    (scaleAxis c size v).frac =
      v.toNat * scaleConst c size % 2 ^ c.scaleBits / 2 ^ (c.scaleBits - c.shiftBits) ∧
    (scaleAxis c size v).frac ≤ 2 ^ c.shiftBits - 1 ∧ (scaleAxis c size 0#8).frac = 0) ∧
  ∀ (size : Nat) (v : Byte), 2 ≤ size → size ≤ 65 → ((scaleAxis Cfg.standard size v).frac = 0 ↔ v = 0#8)

/-- R136: the weights sum to one less than the unit. -/
def Obligations.WeightsSumToOneLessThanTheUnit : Prop :=
  ∀ (c : Cfg) (f : Nat), c.wellFormed = true → f ≤ 2 ^ c.shiftBits - 1 →
    compWeight c f = 2 ^ c.shiftBits - 1 - f ∧ f + compWeight c f + 1 = 2 ^ c.shiftBits ∧ compWeight c f < 2 ^ 15

/-- R137: the flat base offset is the layout's offset of the lowest corner; its range. -/
def Obligations.BaseOffsetOfTheCell : Prop :=
  ∀ (L : Descriptor) (i j k : Nat), (L.tc = 3 ∨ L.tc = 4) → GridSizesLegal L →
    i ≤ L.size .axis0 - 2 → j ≤ L.size .axis1 - 2 → k ≤ L.size .axis2 - 2 →
    baseOffset L i j k = L.tc * (i + j * L.size .axis0 + k * L.size .axis0 * L.size .axis1) ∧
    baseOffset L i j k = nodeOffset L i j k 0 ∧
    baseOffset L i j k ≤
      L.tc * (L.size .axis0 * L.size .axis1 * L.size .axis2 - 1 - 1 - L.size .axis0 -
        L.size .axis0 * L.size .axis1) ∧
    baseOffset L i j k < 2 ^ 21

/-- R150: the eight corner offsets, and that each is channel 0 of its node. -/
def Obligations.CornersAreTheCellsNodes : Prop :=
  (∀ (L : Descriptor) (i j k di dj dk : Nat), di ≤ 1 → dj ≤ 1 → dk ≤ 1 →
    cornerOffset L (baseOffset L i j k) di dj dk = nodeOffset L (i + di) (j + dj) (k + dk) 0) ∧
  ∀ (L : Descriptor) (idx : Nat),
    cornerOffset L idx 0 0 0 = idx ∧ cornerOffset L idx 1 0 0 = idx + L.tc ∧
    cornerOffset L idx 0 1 0 = idx + L.tc * L.size .axis0 ∧
    cornerOffset L idx 1 1 0 = idx + (L.tc * L.size .axis0 + L.tc) ∧
    cornerOffset L idx 0 0 1 = idx + L.tc * L.size .axis0 * L.size .axis1 ∧
    cornerOffset L idx 1 0 1 = idx + (L.tc * L.size .axis0 * L.size .axis1 + L.tc) ∧
    cornerOffset L idx 0 1 1 = idx + (L.tc * L.size .axis0 * L.size .axis1 + L.tc * L.size .axis0) ∧
    cornerOffset L idx 1 1 1 = idx + (L.tc * L.size .axis0 * L.size .axis1 + L.tc * L.size .axis0 + L.tc)

/-- Boundary safety, the spec's own inference (41_coordinate_scaler.md R138): every table offset a pixel reads lies
inside the job's table and inside TBL. -/
def Obligations.EveryCornerIsInTheTable : Prop :=
  ∀ (c : Cfg) (L : Descriptor) (r g b : Byte) (di dj dk ch : Nat), c.wellFormed = true →
    validate L = .noError → precondition c L = none → di ≤ 1 → dj ≤ 1 → dk ≤ 1 → ch < L.tc →
    cornerOffset L
        (baseOffset L (scaleAxis c (L.size .axis0) r).index (scaleAxis c (L.size .axis1) g).index
          (scaleAxis c (L.size .axis2) b).index) di dj dk + ch < tableLen L ∧
      tableLen L ≤ c.tblCapacity

/-- R152: the blend is the floor of the exact weighted sum; the sum fits INT32, the result INT16. -/
def Obligations.LerpIsTheFloorOfTheBlend : Prop :=
  ∀ (c : Cfg) (a b : Int) (f : Nat), c.wellFormed = true → -32768 ≤ a → a ≤ 32767 → -32768 ≤ b → b ≤ 32767 →
    f ≤ 2 ^ c.shiftBits - 1 →
    lerp c a b f * 2 ^ c.shiftBits ≤ a * (2 ^ c.shiftBits - 1 - f) + b * f ∧
    a * (2 ^ c.shiftBits - 1 - f) + b * f < (lerp c a b f + 1) * 2 ^ c.shiftBits ∧
    -2147483648 ≤ a * (2 ^ c.shiftBits - 1 - f) + b * f ∧ a * (2 ^ c.shiftBits - 1 - f) + b * f ≤ 2147483647 ∧
    -32768 ≤ lerp c a b f ∧ lerp c a b f ≤ 32767

/-- The identities of the blend, the spec's own inference (42_trilinear_interpolator.md R158). -/
def Obligations.LerpIdentities : Prop :=
  ∀ (c : Cfg) (a b : Int) (f : Nat), c.wellFormed = true → f ≤ 2 ^ c.shiftBits - 1 →
    lerp c a a f = sar (a * (2 ^ c.shiftBits - 1)) c.shiftBits ∧
    (1 ≤ a → a ≤ 2 ^ c.shiftBits → lerp c a a f = a - 1) ∧ (a = 0 → lerp c a a f = 0) ∧
    (-(2 ^ c.shiftBits : Int) < a → a ≤ -1 → lerp c a a f = a) ∧
    (a = -(2 ^ c.shiftBits : Int) → lerp c a a f = a + 1) ∧
    lerp c a b 0 = lerp c a a 0 ∧ lerp c a b (2 ^ c.shiftBits - 1) = lerp c b b 0

/-- R153, R154, R155: which corners and which fraction each blend takes, axis 0 first, then 1, then 2; the last is
left as an unshifted sum. -/
def Obligations.BlendsRunAxisByAxis : Prop :=
  ∀ (c : Cfg) (C : Nat → Nat → Nat → Int) (f0 f1 f2 : Nat),
    (blends c C f0 f1 f2).leftleft = lerp c (C 0 0 0) (C 1 0 0) f0 ∧
    (blends c C f0 f1 f2).leftright = lerp c (C 0 1 0) (C 1 1 0) f0 ∧
    (blends c C f0 f1 f2).rightleft = lerp c (C 0 0 1) (C 1 0 1) f0 ∧
    (blends c C f0 f1 f2).rightright = lerp c (C 0 1 1) (C 1 1 1) f0 ∧
    (blends c C f0 f1 f2).left = lerp c (blends c C f0 f1 f2).leftleft (blends c C f0 f1 f2).leftright f1 ∧
    (blends c C f0 f1 f2).right = lerp c (blends c C f0 f1 f2).rightleft (blends c C f0 f1 f2).rightright f1 ∧
    (blends c C f0 f1 f2).acc =
      (blends c C f0 f1 f2).left * ((2 ^ c.shiftBits - 1 - f2 : Nat) : Int) +
        (blends c C f0 f1 f2).right * (f2 : Int)

/-- The ranges of the blends, the spec's own inference (42_trilinear_interpolator.md R159; 43_rounding_clipper.md
R176): none of the six intermediate blends overflows its lane and the biased sum is an INT32, whatever INT16 values
the table holds; a table inside its contract stays inside it at each of them. The range of the rounded value at the
default configuration rests on log 2. -/
def Obligations.BlendsFitTheirLanes : Prop :=
  ∀ (c : Cfg) (C : Nat → Nat → Nat → Int) (f0 f1 f2 : Nat), c.wellFormed = true →
    f0 ≤ 2 ^ c.shiftBits - 1 → f1 ≤ 2 ^ c.shiftBits - 1 → f2 ≤ 2 ^ c.shiftBits - 1 →
    ((∀ i j k, -32768 ≤ C i j k ∧ C i j k ≤ 32767) →
      (∀ v ∈ [(blends c C f0 f1 f2).leftleft, (blends c C f0 f1 f2).leftright, (blends c C f0 f1 f2).rightleft,
          (blends c C f0 f1 f2).rightright, (blends c C f0 f1 f2).left, (blends c C f0 f1 f2).right],
        -32767 ≤ v ∧ v ≤ 32766) ∧
      -32768 * (2 ^ c.shiftBits - 1) ≤ (blends c C f0 f1 f2).acc ∧
      (blends c C f0 f1 f2).acc ≤ 32767 * (2 ^ c.shiftBits - 1) ∧
      -2147483648 ≤ (blends c C f0 f1 f2).acc + (roundingBias c : Int) ∧
      (blends c C f0 f1 f2).acc + (roundingBias c : Int) ≤ 2147483647 ∧
      (c = Cfg.standard → -512 ≤ roundShift c (blends c C f0 f1 f2).acc ∧
        roundShift c (blends c C f0 f1 f2).acc ≤ 512)) ∧
    ((∀ i j k, 0 ≤ C i j k ∧ C i j k ≤ 255 * 2 ^ c.precisionBits) →
      (∀ v ∈ [(blends c C f0 f1 f2).leftleft, (blends c C f0 f1 f2).leftright, (blends c C f0 f1 f2).rightleft,
          (blends c C f0 f1 f2).rightright, (blends c C f0 f1 f2).left, (blends c C f0 f1 f2).right],
        0 ≤ v ∧ v ≤ 255 * 2 ^ c.precisionBits) ∧
      0 ≤ (blends c C f0 f1 f2).acc ∧
      (blends c C f0 f1 f2).acc ≤ 255 * 2 ^ c.precisionBits * (2 ^ c.shiftBits - 1) ∧
      0 ≤ roundShift c (blends c C f0 f1 f2).acc ∧ roundShift c (blends c C f0 f1 f2).acc ≤ 255)

/-- R170: the accumulator over `2^(PRECISION_BITS+SHIFT_BITS)`, rounded to nearest with ties upward: the bias is
half of the unit discarded. -/
def Obligations.RoundingIsHalfUp : Prop :=
  ∀ (c : Cfg) (acc : Int), c.wellFormed = true →
    2 * (roundingBias c : Int) = 2 ^ (c.precisionBits + c.shiftBits) ∧
    roundShift c acc * 2 ^ (c.precisionBits + c.shiftBits) ≤ acc + (roundingBias c : Int) ∧
    acc + (roundingBias c : Int) < (roundShift c acc + 1) * 2 ^ (c.precisionBits + c.shiftBits)

/-- R171, R172: the output sample is the rounded value, saturated to 0..255. -/
def Obligations.ClipSaturates : Prop :=
  ∀ (c : Cfg) (acc : Int),
    (roundShift c acc < 0 → (roundClip c acc).toNat = 0) ∧
    (255 < roundShift c acc → (roundClip c acc).toNat = 255) ∧
    (0 ≤ roundShift c acc → roundShift c acc ≤ 255 → ((roundClip c acc).toNat : Int) = roundShift c acc)

/-- The two-step form of the rounding is the same function, the spec's own inference (43_rounding_clipper.md R173). -/
def Obligations.TwoStepRoundingAgrees : Prop :=
  ∀ (c : Cfg) (acc : Int), c.wellFormed = true →
    sar (sar acc c.shiftBits + (precisionRounding c : Int)) c.precisionBits = roundShift c acc

/-- The rounding clipper is monotonic and saturates at its thresholds, the spec's own inference
(43_rounding_clipper.md R175). -/
def Obligations.RoundClipIsMonotonic : Prop :=
  ∀ (c : Cfg) (acc acc' : Int), c.wellFormed = true →
    (acc ≤ acc' → (roundClip c acc).toNat ≤ (roundClip c acc').toNat) ∧
    (acc < 2 ^ (c.precisionBits + c.shiftBits) - (roundingBias c : Int) → roundClip c acc = 0#8) ∧
    (255 * 2 ^ (c.precisionBits + c.shiftBits) - (roundingBias c : Int) ≤ acc → roundClip c acc = 255#8)

/-- Grid-corner exactness as the spec's own inference states it (43_rounding_clipper.md R177), at the default
configuration: with all weight on the lowest corner the output is the ideal rounding of the stored value, and one
less in the half-level tie case. -/
def Obligations.GridCornerExactness : Prop :=
  ∀ (C : Nat → Nat → Nat → Int) (t : Int), C 0 0 0 = t → -32768 ≤ t → t ≤ 32767 →
    ((roundClip Cfg.standard (blends Cfg.standard C 0 0 0).acc).toNat : Int) =
      clip (sar (t + 32) 6) -
        (if 0 < t ∧ t < 16320 ∧ (t % 64 = 32 ∨ t % 64 = 33 ∨ t % 64 = 34) then 1 else 0)

/-- R108: a sample is the composition of scaler, gather, interpolator and rounding clipper; it depends on the three
addressing samples, `tc`, the sizes, the configuration and its eight gathered table elements, and on nothing else. -/
def Obligations.SampleDependsOnlyOnItsPixel : Prop :=
  (∀ (c : Cfg) (L : Descriptor) (tbl : List (Nat × Elem)) (r g b : Byte) (ch : Nat),
    pixelOut c L tbl r g b ch =
      roundClip c
        (blends c
          (fun di dj dk =>
            (Memory.read tbl
              (cornerOffset L
                (baseOffset L (scaleAxis c (L.size .axis0) r).index (scaleAxis c (L.size .axis1) g).index
                  (scaleAxis c (L.size .axis2) b).index) di dj dk + ch)).toInt)
          (scaleAxis c (L.size .axis0) r).frac (scaleAxis c (L.size .axis1) g).frac
          (scaleAxis c (L.size .axis2) b).frac).acc) ∧
  ∀ (c : Cfg) (L L' : Descriptor) (tbl tbl' : List (Nat × Elem)) (pix pix' : List Host.Cell)
    (y x y' x' ch idx : Nat), L'.tc = L.tc → (∀ a, L'.size a = L.size a) →
    (∀ b, b < 3 → Memory.read pix' (sampleAddr L' .input y' x' b) = Memory.read pix (sampleAddr L .input y x b)) →
    idx = baseOffset L (scaleAxis c (L.size .axis0) (Memory.read pix (sampleAddr L .input y x 0))).index
      (scaleAxis c (L.size .axis1) (Memory.read pix (sampleAddr L .input y x 1))).index
      (scaleAxis c (L.size .axis2) (Memory.read pix (sampleAddr L .input y x 2))).index →
    (∀ di dj dk, di ≤ 1 → dj ≤ 1 → dk ≤ 1 →
      Memory.read tbl' (cornerOffset L idx di dj dk + ch) = Memory.read tbl (cornerOffset L idx di dj dk + ch)) →
    pixelResult c L' pix' tbl' y' x' ch = pixelResult c L pix tbl y x ch

/-! ### The sequencer -/

/-- R107, R109: the pixel step reads the three addressing samples of its pixel and writes its `tc` results, at the
addresses of the spec's formula, while the host has kept its duties towards the job (R64; for a job towards which it
has not, see AnyUnfinishedRowMayStep). -/
def Obligations.PixelStepWritesItsPixel : Prop :=
  ∀ (s : State) (j : Job) (y x : Nat) (rest : List Move), Memory.wf s.pix = true → s.state = .busy →
    s.job = some j → j.disturbed = false → j.cur[y]? = some x → x < j.latched.W →
    s.moves = .sampler (some y) :: rest →
    ∃ t, step s = .next t ∧ ∀ ch, ch < j.latched.tc →
      Memory.read t.pix
          (j.latched.outBase.toNat + y * j.latched.outRstride.toNat + x * j.latched.outPstride.toNat + ch) =
        pixelOut s.cfg j.latched s.tbl
          (Memory.read s.pix
            (j.latched.inBase.toNat + y * j.latched.inRstride.toNat + x * j.latched.inPstride.toNat + 0))
          (Memory.read s.pix
            (j.latched.inBase.toNat + y * j.latched.inRstride.toNat + x * j.latched.inPstride.toNat + 1))
          (Memory.read s.pix
            (j.latched.inBase.toNat + y * j.latched.inRstride.toNat + x * j.latched.inPstride.toNat + 2)) ch

/-- The frame of the pixel step: only the cursor of its row and the `tc` bytes of the pixel change, the latched
descriptor and the other cursors included in what stays; bands `tc` and above, the bytes between pixels and everything
else stay (40_transform_command.md section 3; 20_memory.md R59). The count of draws is the model's own, log 18: it
advances only in a job towards which the host has broken its duties. -/
def Obligations.PixelStepFrame : Prop :=
  ∀ (s : State) (j : Job) (y x : Nat) (rest : List Move), s.state = .busy → s.job = some j →
    j.cur[y]? = some x → x < j.latched.W → s.moves = .sampler (some y) :: rest →
    ∃ t, step s = .next t ∧
      t = { s with
        pix := t.pix, job := some { j with cur := j.cur.set y (x + 1) }, moves := rest, draws := t.draws } ∧
      (j.disturbed = false → t.draws = s.draws) ∧
      ∀ a, (∀ ch, ch < j.latched.tc → a ≠ sampleAddr j.latched .output y x ch) →
        Memory.read t.pix a = Memory.read s.pix a

/-- The pixel step (40_transform_command.md section 3, R106): any unfinished row may step, with the pixel operation of
its next pixel; its cursor advances by exactly 1 and no other cursor moves; the reference schedule takes the least
unfinished row. In a job towards which the host has broken its duties each byte written is a free value
(93_implementation_defined.md U6, log 18). Two conventions are the model's choice, log 8: a move that names a finished
row is answered by the same state (that row has no step), and the reference schedule is also taken when no move is
pending. -/
def Obligations.AnyUnfinishedRowMayStep : Prop :=
  ∀ (s : State) (j : Job) (y x : Nat) (rest : List Move), s.state = .busy → s.job = some j → j.cur[y]? = some x →
    (x < j.latched.W → s.moves = .sampler (some y) :: rest →
      ∃ t j', step s = .next t ∧ t.state = .busy ∧ t.job = some j' ∧ j'.latched = j.latched ∧
        j'.disturbed = j.disturbed ∧ j'.cur[y]? = some (x + 1) ∧ (∀ v, v ≠ y → j'.cur[v]? = j.cur[v]?) ∧
        (Memory.wf s.pix = true → ∀ ch, ch < j.latched.tc →
          Memory.read t.pix (sampleAddr j.latched .output y x ch) =
            (if j.disturbed then Config.openByte s.draws (sampleAddr j.latched .output y x ch)
              else pixelResult s.cfg j.latched s.pix s.tbl y x ch))) ∧
    (j.latched.W ≤ x → s.moves = .sampler (some y) :: rest → step s = .next { s with moves := rest }) ∧
    (x < j.latched.W → (∀ v n, v < y → j.cur[v]? = some n → j.latched.W ≤ n) →
      step { s with moves := [.sampler none] } = step { s with moves := [.sampler (some y)] } ∧
      step { s with moves := [] } = step { s with moves := [.sampler (some y)] })

/-- The completion step (40_transform_command.md section 3, R111), when and only when every row is finished: what it
sets and that it sets nothing else; BUSY is never a final state. Outside BUSY, in every state, no step of the sampler
is enabled. Two conventions are the model's choice, log 8: a move of the sampler that is not enabled, and a step with
no move pending outside BUSY, change nothing; with no move pending in BUSY the sampler steps. That a job goes on after the
host has broken its duties towards it is log 18. -/
def Obligations.CompletionEndsTheJob : Prop :=
  ∀ (s : State) (rest : List Move),
    (s.state = .busy → ∀ j, s.job = some j →
      ((∀ x ∈ j.cur, j.latched.W ≤ x) → s.moves = .sampler none :: rest →
        step s = .next { s with state := .done, err := .noError, job := none, moves := rest }) ∧
      ((∃ x ∈ j.cur, x < j.latched.W) → ∀ row, s.moves = .sampler row :: rest →
        ∃ t, step s = .next t ∧ t.state = .busy) ∧
      (s.moves = [] → step s ≠ .next s)) ∧
    (s.state ≠ .busy →
      (∀ row, s.moves = .sampler row :: rest → step s = .next { s with moves := rest }) ∧
      (s.moves = [] → step s = .next s))

/-- Progress (70_reset_and_hazards.md section 4, R222). The rule's fairness of the sampler is read through the model's
choice that with no move pending the sampler steps by the reference schedule (log 8): then a job that has `n` pixels
left is BUSY for exactly `n` steps, each of which advances one cursor by one, and DONE after one more. That a job goes on
after the host has broken its duties towards it is log 18. -/
def Obligations.BusyJobReachesDone : Prop :=
  ∀ (s : State) (j : Job), s.Inv → s.job = some j → s.moves = [] →
    (∀ k, k ≤ j.latched.W * j.latched.H - j.cur.sum → ∃ t j', runSteps k s = .next t ∧ t.state = .busy ∧
      t.job = some j' ∧ j'.cur.sum = j.cur.sum + k) ∧
    ∃ t, runSteps (j.latched.W * j.latched.H - j.cur.sum + 1) s = .next t ∧ t.state = .done

/-! ### The job as one function -/

/-- The invariant holds at reset. The clause on memories and the configuration of `State.reset` rest on log 2 and
log 5. -/
def Obligations.InvariantAtReset : Prop := State.Inv State.reset

/-- Every step keeps the invariant: memories in canonical form and inside their spaces, an error code exactly in
FAILED, a job exactly in BUSY, and a running job that passed validation and the preconditions, with `L` equal to the
descriptor registers, SCALE0..2 equal to its constants and every cursor within WIDTH. The spec's own inference
(10_state.md R38 (a) to (c)); for a store of the host that breaks its duties it rests on log 18. -/
def Obligations.EveryStepKeepsTheInvariant : Prop := ∀ s t : State, s.Inv → step s = .next t → t.Inv

/-- What a job has done so far is kept by every step of any agent, whatever the host does meanwhile within its
duties: finished pixels hold their results, the inputs of the others are intact; when the job is DONE every pixel
holds the result computed from the memory in which the job was accepted. Only a store of the host that breaks its duties
ends this, and marks the job (log 18). The spec's own inference (10_state.md R38 (c), (d); 20_memory.md R67). -/
def Obligations.JobProgressIsKept : Prop :=
  (∀ (s t : State) (j : Job), s.state ≠ .busy → exec .xform s = .next t → t.state = .busy → t.job = some j →
    j.disturbed = false ∧ JobProgress s.pix t j) ∧
  ∀ (s t : State) (j : Job) (before : List Host.Cell), s.Inv → s.job = some j → j.disturbed = false →
    JobProgress before s j → step s = .next t →
    (∀ j', t.job = some j' → j'.latched = j.latched ∧
      (j'.disturbed = false ∧ JobProgress before t j' ∨
        j'.disturbed = true ∧ ∃ m rest, s.moves = m :: rest ∧ BreaksDuty j.latched m)) ∧
    (t.state = .done → ∀ y x ch, y < j.latched.H → x < j.latched.W → ch < j.latched.tc →
      Memory.read t.pix (sampleAddr j.latched .output y x ch) =
        pixelResult t.cfg j.latched before t.tbl y x ch)

/-- The big-step meaning of an accepted XFORM, the spec's own inference (40_transform_command.md R113): with no
other move of the host, when the sampler steps by the reference schedule (log 8), the run reaches DONE with no error after `W * H` pixel steps and one completion step; every
output sample is the pipeline's result on the memory at acceptance, every other byte is unchanged, and so are TBL
and the descriptor registers; SCALE0..2 hold the job's scales. -/
def Obligations.XformComputesTheWholeImage : Prop :=
  ∀ s : State, s.Inv → s.StartsJob → s.moves = [] →
    ∃ t, runSteps (s.desc.W * s.desc.H + 2) (s.withCommand (encode .xform)) = .next t ∧
      t.state = .done ∧ t.err = .noError ∧ JobResult s.cfg s.desc s.tbl s.pix t.pix ∧
      t.tbl = s.tbl ∧ t.desc = s.desc ∧
      ∀ a, (t.scale a).toNat = (s.desc.size a - 1) * 2 ^ s.cfg.scaleBits / 255

/-- Determinism, the spec's own inference (20_memory.md R67): under any two schedules of the sampler that bring a
fresh job to DONE the final PIX is the same, and is the job's result. -/
def Obligations.AllSchedulesAgree : Prop :=
  ∀ (s : State) (j : Job) (ms ms' : List Move) (t t' : State), s.Inv → s.job = some j → j.disturbed = false →
    (∀ x ∈ j.cur, x = 0) → SamplerOnly ms → SamplerOnly ms' → runSteps ms.length { s with moves := ms } = .next t →
    runSteps ms'.length { s with moves := ms' } = .next t' → t.state = .done → t'.state = .done →
    t.pix = t'.pix ∧ JobResult s.cfg j.latched s.tbl s.pix t.pix

/-- In-place safety, the spec's own inference (40_transform_command.md R114): two jobs on the same table and the
same input bytes, whose descriptors differ in the output image only, write the same bytes, wherever their outputs
lie. -/
def Obligations.InPlaceSafety : Prop :=
  ∀ (s s' t t' : State), s.Inv → s'.Inv → s.StartsJob → s'.StartsJob → s.moves = [] → s'.moves = [] →
    s'.cfg = s.cfg → s'.tbl = s.tbl →
    s'.desc = { s.desc with
      outType := s'.desc.outType, outBands := s'.desc.outBands, outPstride := s'.desc.outPstride,
      outRstride := s'.desc.outRstride, outBase := s'.desc.outBase } →
    (∀ a, IsRead s.desc a → Memory.read s'.pix a = Memory.read s.pix a) →
    runSteps (s.desc.W * s.desc.H + 2) (s.withCommand (encode .xform)) = .next t →
    runSteps (s.desc.W * s.desc.H + 2) (s'.withCommand (encode .xform)) = .next t' →
    ∀ y x ch, y < s.desc.H → x < s.desc.W → ch < s.desc.tc →
      Memory.read t.pix (sampleAddr s.desc .output y x ch) = Memory.read t'.pix (sampleAddr s'.desc .output y x ch)

/-- Exact aliasing and disjoint regions meet the no-hazard condition, the spec's own inference (20_memory.md R62). -/
def Obligations.AliasedAndDisjointImagesAreSafe : Prop :=
  ∀ d : Descriptor, d.tc = 3 ∨ d.tc = 4 →
    (d.inBase = d.outBase → d.inPstride = d.outPstride → d.inRstride = d.outRstride →
      3 ≤ d.inPstride.toNat → d.tc ≤ d.inPstride.toNat → d.W * d.inPstride.toNat ≤ d.inRstride.toNat →
      NoHazard d) ∧
    ((∀ a, IsWritten d a → ¬ IsRead d a) → 3 ≤ d.inPstride.toNat → d.W * d.inPstride.toNat ≤ d.inRstride.toNat →
      d.tc ≤ d.outPstride.toNat → d.W * d.outPstride.toNat ≤ d.outRstride.toNat → NoHazard d)

/-! ### Reset, the host and the memories -/

/-- What reset leaves (10_state.md section 4, R37). No descriptor and no SCALE register has been written; that a read of
one completes with a free value is the model's choice, log 17. -/
def Obligations.ResetValues : Prop :=
  State.reset.state = .idle ∧ State.reset.err = .noError ∧
  statusWord State.reset.state State.reset.err = 0x00000000#32 ∧
  State.reset.job = none ∧
  (∀ rest, step { State.reset with moves := .regRead 0x00 :: rest } =
    .next { State.reset with moves := rest, readData := 0#32 }) ∧
  (∀ rest, step { State.reset with moves := .regRead 0x08 :: rest } =
    .next { State.reset with moves := rest, readData := paramsWord State.reset.cfg }) ∧
  (∀ q, State.reset.written.get q = false) ∧ State.reset.scaleWritten = false ∧
  (∀ q rest, step { State.reset with moves := .regRead (Reg.offset (.desc q)) :: rest } =
    .next { State.reset with
      moves := rest, readData := Config.unwrittenRegister State.reset.resets (Reg.number (.desc q)) }) ∧
  (∀ a rest, step { State.reset with moves := .regRead (Reg.offset (.scale a)) :: rest } =
    .next { State.reset with
      moves := rest, readData := Config.unwrittenRegister State.reset.resets (Reg.number (.scale a)) })

/-- The reset event, in any state, also inside write-backs (`torn`): STATUS 0, no descriptor register and no SCALE
register counts as written, no job; the configuration, TBL and the moves still to come stay, and so does PIX where no
write-back is in flight (for one in flight see ResetMidJobLeavesAMixture). Afterwards no step of the sampler is enabled
(70_reset_and_hazards.md section 1, R210). That a step with no move pending then answers the same state is the model's
choice, log 8. -/
def Obligations.ResetEventRestoresTheBlock : Prop :=
  ∀ (s : State) (torn : List (Nat × List Nat)) (rest : List Move), s.moves = .reset torn :: rest →
    ∃ t, step s = .next t ∧ t.state = .idle ∧ t.err = .noError ∧ (∀ q, t.written.get q = false) ∧
      t.scaleWritten = false ∧ t.job = none ∧ t.cfg = s.cfg ∧ t.tbl = s.tbl ∧ t.moves = rest ∧
      (torn = [] ∨ s.state ≠ .busy → t.pix = s.pix) ∧ step { t with moves := [] } = .next { t with moves := [] }

/-- A reset while BUSY abandons the job (70_reset_and_hazards.md section 1, R211): STATUS reads IDLE; every byte keeps
its value, but for bands of a pixel in flight, which may hold the new sample. That only the pixel at the cursor of each
unfinished row can be in flight, its samples computed from the memory before the reset, is the model's deduction,
log 11. That a band in flight holds any value in a job towards which the host has broken its duties is log 18. -/
def Obligations.ResetMidJobLeavesAMixture : Prop :=
  ∀ (s : State) (j : Job) (torn : List (Nat × List Nat)) (rest : List Move), Memory.wf s.pix = true →
    s.state = .busy → s.job = some j → s.moves = .reset torn :: rest →
    ∃ t, step s = .next t ∧ t.state = .idle ∧ t.err = .noError ∧ t.job = none ∧ t.tbl = s.tbl ∧
      ∀ a, Memory.read t.pix a = Memory.read s.pix a ∨
        ∃ y x ch, j.cur[y]? = some x ∧ x < j.latched.W ∧ ch < j.latched.tc ∧
          a = sampleAddr j.latched .output y x ch ∧
          Memory.read t.pix a =
            (if j.disturbed then Config.openByte s.draws a else pixelResult s.cfg j.latched s.pix s.tbl y x ch)

/-- The host's accesses while BUSY. Within its duties (20_memory.md section 4, R64) every access inside the spaces is
made as outside BUSY, a load of any element of TBL among them (10_state.md section 1, R21). A load of a byte the job
writes returns a free value: nothing is promised about it (70_reset_and_hazards.md section 3, R214, R216). A store to a
byte the job reads or writes, or to its table, is made, and every output byte of the job holds a free value from then on
(93_implementation_defined.md section 1, U6). That the host makes these accesses is the model's choice, log 18; the
width of the data returned is log 7. -/
def Obligations.HostDutiesWhileBusy : Prop :=
  ∀ (s : State) (j : Job) (a o : Nat) (v : Byte) (e : Elem) (rest : List Move), s.state = .busy →
    s.job = some j → Memory.wf s.pix = true → a < 2 ^ s.cfg.addrBits → o < s.cfg.tblCapacity →
    (IsRead j.latched a ∨ IsWritten j.latched a → s.moves = .pixWrite a v :: rest →
      ∃ t, step s = .next t ∧
        t = { s with
          moves := rest, pix := t.pix, job := some { j with disturbed := true }, draws := s.draws + 1 } ∧
        (∀ b, IsWritten j.latched b → Memory.read t.pix b = Config.openByte s.draws b) ∧
        (¬ IsWritten j.latched a → Memory.read t.pix a = v) ∧
        ∀ b, ¬ IsWritten j.latched b → b ≠ a → Memory.read t.pix b = Memory.read s.pix b) ∧
    (IsWritten j.latched a → s.moves = .pixRead a :: rest →
      step s = .next { s with
        moves := rest, readData := (Config.openByte s.draws a).setWidth 32, draws := s.draws + 1 }) ∧
    (InTable j.latched o → s.moves = .tblWrite o e :: rest →
      ∃ t, step s = .next t ∧
        t = { s with
          moves := rest, tbl := Memory.write s.tbl o e, pix := t.pix, job := some { j with disturbed := true },
          draws := s.draws + 1 } ∧
        (∀ b, IsWritten j.latched b → Memory.read t.pix b = Config.openByte s.draws b) ∧
        ∀ b, ¬ IsWritten j.latched b → Memory.read t.pix b = Memory.read s.pix b) ∧
    (¬ IsRead j.latched a → ¬ IsWritten j.latched a → s.moves = .pixWrite a v :: rest →
      step s = .next { s with moves := rest, pix := Memory.write s.pix a v }) ∧
    (¬ IsWritten j.latched a → s.moves = .pixRead a :: rest →
      step s = .next { s with moves := rest, readData := (Memory.read s.pix a).setWidth 32 }) ∧
    (¬ InTable j.latched o → s.moves = .tblWrite o e :: rest →
      step s = .next { s with moves := rest, tbl := Memory.write s.tbl o e }) ∧
    (s.moves = .tblRead o :: rest →
      step s = .next { s with moves := rest, readData := (Memory.read s.tbl o).signExtend 32 })

/-- Outside BUSY the host stores and loads any byte of PIX and any element of TBL, and a load gives what was stored;
a location beyond the space faults (20_memory.md sections 1 and 4; the width of the data returned is log 7, the fault
log 12; that no STATUS read need have returned DONE first is log 19). -/
def Obligations.HostMemoryAccess : Prop :=
  ∀ (s : State) (a : Nat) (v : Byte) (e : Elem) (rest : List Move), s.state ≠ .busy → Memory.wf s.pix = true →
    Memory.wf s.tbl = true →
    (a < 2 ^ s.cfg.addrBits → s.moves = .pixWrite a v :: .pixRead a :: rest →
      ∃ t, runSteps 2 s = .next t ∧ t.readData = v.setWidth 32 ∧
        (∀ b, b ≠ a → Memory.read t.pix b = Memory.read s.pix b) ∧
        t = { s with pix := t.pix, readData := t.readData, moves := rest }) ∧
    (a < s.cfg.tblCapacity → s.moves = .tblWrite a e :: .tblRead a :: rest →
      ∃ t, runSteps 2 s = .next t ∧ t.readData = e.signExtend 32 ∧
        (∀ b, b ≠ a → Memory.read t.tbl b = Memory.read s.tbl b) ∧
        t = { s with tbl := t.tbl, readData := t.readData, moves := rest }) ∧
    (2 ^ s.cfg.addrBits ≤ a → s.moves = .pixWrite a v :: rest ∨ s.moves = .pixRead a :: rest →
      step s = .fault (.noSuchPixByte a)) ∧
    (s.cfg.tblCapacity ≤ a → s.moves = .tblWrite a e :: rest ∨ s.moves = .tblRead a :: rest →
      step s = .fault (.noSuchTblElement a))

/-- The three spaces are disjoint: the block never writes TBL and never reaches REG through PIX, so no job alters its
own table or descriptor; PIX is written by the host's stores and by a running job only (10_state.md section 3, R34).
That a store of the host to a running job's table makes the job's output bytes any value is the model's choice,
log 18. -/
def Obligations.SpacesAreDisjoint : Prop :=
  ∀ s t : State, step s = .next t →
    (t.tbl ≠ s.tbl → ∃ o v rest, s.moves = .tblWrite o v :: rest) ∧
    (t.pix ≠ s.pix → (∃ a v rest, s.moves = .pixWrite a v :: rest) ∨
      s.state = .busy ∧
        (s.moves = [] ∨ (∃ row rest, s.moves = .sampler row :: rest) ∨ (∃ torn rest, s.moves = .reset torn :: rest) ∨
          ∃ j o e rest, s.job = some j ∧ InTable j.latched o ∧ s.moves = .tblWrite o e :: rest)) ∧
    ((s.moves = [] ∨ (∃ row rest, s.moves = .sampler row :: rest) ∨ (∃ a v rest, s.moves = .pixWrite a v :: rest)) →
      t.desc = s.desc ∧ t.written = s.written ∧ t.scaleWritten = s.scaleWritten ∧ ∀ a, t.scale a = s.scale a)

/-- POLL reads STATUS until it is not BUSY (30_encoding.md section 5; that the sampler steps once between two reads
is the model's choice, log 8). -/
def Obligations.PollReadsStatusUntilNotBusy : Prop :=
  ∀ (s : State) (rest : List Move), s.moves = .poll :: rest →
    (s.state ≠ .busy →
      step s = .next { s with moves := rest, readData := statusWord s.state s.err }) ∧
    (s.state = .busy →
      step s = .next { s with moves := .sampler none :: .poll :: rest, readData := statusWord s.state s.err })
end

