-- ==== Sys2Proof/Laws/State.lean ====
section
/-! SUPPORT. One lemma for each field and each named update of the state, true by unfolding the update once. -/

namespace Sys2Proof.Machine

variable (s : State)

/-! ### withMoves -/

@[simp] theorem State.withMoves_cfg (ms : List Move) : (s.withMoves ms).cfg = s.cfg := rfl
@[simp] theorem State.withMoves_state (ms : List Move) : (s.withMoves ms).state = s.state := rfl
@[simp] theorem State.withMoves_err (ms : List Move) : (s.withMoves ms).err = s.err := rfl
@[simp] theorem State.withMoves_desc (ms : List Move) : (s.withMoves ms).desc = s.desc := rfl
@[simp] theorem State.withMoves_written (ms : List Move) : (s.withMoves ms).written = s.written := rfl
@[simp] theorem State.withMoves_scale0 (ms : List Move) : (s.withMoves ms).scale0 = s.scale0 := rfl
@[simp] theorem State.withMoves_scale1 (ms : List Move) : (s.withMoves ms).scale1 = s.scale1 := rfl
@[simp] theorem State.withMoves_scale2 (ms : List Move) : (s.withMoves ms).scale2 = s.scale2 := rfl
@[simp] theorem State.withMoves_scaleWritten (ms : List Move) : (s.withMoves ms).scaleWritten = s.scaleWritten := rfl
@[simp] theorem State.withMoves_job (ms : List Move) : (s.withMoves ms).job = s.job := rfl
@[simp] theorem State.withMoves_pix (ms : List Move) : (s.withMoves ms).pix = s.pix := rfl
@[simp] theorem State.withMoves_tbl (ms : List Move) : (s.withMoves ms).tbl = s.tbl := rfl
@[simp] theorem State.withMoves_moves (ms : List Move) : (s.withMoves ms).moves = ms := rfl
@[simp] theorem State.withMoves_readData (ms : List Move) : (s.withMoves ms).readData = s.readData := rfl
@[simp] theorem State.withMoves_resets (ms : List Move) : (s.withMoves ms).resets = s.resets := rfl
@[simp] theorem State.withMoves_draws (ms : List Move) : (s.withMoves ms).draws = s.draws := rfl
@[simp] theorem State.withMoves_scale (ms : List Move) (d : Axis) : (s.withMoves ms).scale d = s.scale d := by cases d <;> rfl

/-! ### returnToHost -/

@[simp] theorem State.returnToHost_cfg (v : Word) : (s.returnToHost v).cfg = s.cfg := rfl
@[simp] theorem State.returnToHost_state (v : Word) : (s.returnToHost v).state = s.state := rfl
@[simp] theorem State.returnToHost_err (v : Word) : (s.returnToHost v).err = s.err := rfl
@[simp] theorem State.returnToHost_desc (v : Word) : (s.returnToHost v).desc = s.desc := rfl
@[simp] theorem State.returnToHost_written (v : Word) : (s.returnToHost v).written = s.written := rfl
@[simp] theorem State.returnToHost_scale0 (v : Word) : (s.returnToHost v).scale0 = s.scale0 := rfl
@[simp] theorem State.returnToHost_scale1 (v : Word) : (s.returnToHost v).scale1 = s.scale1 := rfl
@[simp] theorem State.returnToHost_scale2 (v : Word) : (s.returnToHost v).scale2 = s.scale2 := rfl
@[simp] theorem State.returnToHost_scaleWritten (v : Word) : (s.returnToHost v).scaleWritten = s.scaleWritten := rfl
@[simp] theorem State.returnToHost_job (v : Word) : (s.returnToHost v).job = s.job := rfl
@[simp] theorem State.returnToHost_pix (v : Word) : (s.returnToHost v).pix = s.pix := rfl
@[simp] theorem State.returnToHost_tbl (v : Word) : (s.returnToHost v).tbl = s.tbl := rfl
@[simp] theorem State.returnToHost_moves (v : Word) : (s.returnToHost v).moves = s.moves := rfl
@[simp] theorem State.returnToHost_readData (v : Word) : (s.returnToHost v).readData = v := rfl
@[simp] theorem State.returnToHost_resets (v : Word) : (s.returnToHost v).resets = s.resets := rfl
@[simp] theorem State.returnToHost_draws (v : Word) : (s.returnToHost v).draws = s.draws := rfl
@[simp] theorem State.returnToHost_scale (v : Word) (d : Axis) : (s.returnToHost v).scale d = s.scale d := by cases d <;> rfl

/-! ### returnOpenByte -/

@[simp] theorem State.returnOpenByte_cfg (a : Nat) : (s.returnOpenByte a).cfg = s.cfg := rfl
@[simp] theorem State.returnOpenByte_state (a : Nat) : (s.returnOpenByte a).state = s.state := rfl
@[simp] theorem State.returnOpenByte_err (a : Nat) : (s.returnOpenByte a).err = s.err := rfl
@[simp] theorem State.returnOpenByte_desc (a : Nat) : (s.returnOpenByte a).desc = s.desc := rfl
@[simp] theorem State.returnOpenByte_written (a : Nat) : (s.returnOpenByte a).written = s.written := rfl
@[simp] theorem State.returnOpenByte_scale0 (a : Nat) : (s.returnOpenByte a).scale0 = s.scale0 := rfl
@[simp] theorem State.returnOpenByte_scale1 (a : Nat) : (s.returnOpenByte a).scale1 = s.scale1 := rfl
@[simp] theorem State.returnOpenByte_scale2 (a : Nat) : (s.returnOpenByte a).scale2 = s.scale2 := rfl
@[simp] theorem State.returnOpenByte_scaleWritten (a : Nat) : (s.returnOpenByte a).scaleWritten = s.scaleWritten :=
  rfl
@[simp] theorem State.returnOpenByte_job (a : Nat) : (s.returnOpenByte a).job = s.job := rfl
@[simp] theorem State.returnOpenByte_pix (a : Nat) : (s.returnOpenByte a).pix = s.pix := rfl
@[simp] theorem State.returnOpenByte_tbl (a : Nat) : (s.returnOpenByte a).tbl = s.tbl := rfl
@[simp] theorem State.returnOpenByte_moves (a : Nat) : (s.returnOpenByte a).moves = s.moves := rfl
@[simp] theorem State.returnOpenByte_readData (a : Nat) : (s.returnOpenByte a).readData = (Config.openByte s.draws a).setWidth 32 :=
  rfl
@[simp] theorem State.returnOpenByte_resets (a : Nat) : (s.returnOpenByte a).resets = s.resets := rfl
@[simp] theorem State.returnOpenByte_draws (a : Nat) : (s.returnOpenByte a).draws = s.draws + 1 := rfl
@[simp] theorem State.returnOpenByte_scale (a : Nat) (d : Axis) : (s.returnOpenByte a).scale d = s.scale d := by cases d <;> rfl

/-! ### storePix -/

@[simp] theorem State.storePix_cfg (a : Nat) (v : Byte) : (s.storePix a v).cfg = s.cfg := rfl
@[simp] theorem State.storePix_state (a : Nat) (v : Byte) : (s.storePix a v).state = s.state := rfl
@[simp] theorem State.storePix_err (a : Nat) (v : Byte) : (s.storePix a v).err = s.err := rfl
@[simp] theorem State.storePix_desc (a : Nat) (v : Byte) : (s.storePix a v).desc = s.desc := rfl
@[simp] theorem State.storePix_written (a : Nat) (v : Byte) : (s.storePix a v).written = s.written := rfl
@[simp] theorem State.storePix_scale0 (a : Nat) (v : Byte) : (s.storePix a v).scale0 = s.scale0 := rfl
@[simp] theorem State.storePix_scale1 (a : Nat) (v : Byte) : (s.storePix a v).scale1 = s.scale1 := rfl
@[simp] theorem State.storePix_scale2 (a : Nat) (v : Byte) : (s.storePix a v).scale2 = s.scale2 := rfl
@[simp] theorem State.storePix_scaleWritten (a : Nat) (v : Byte) : (s.storePix a v).scaleWritten = s.scaleWritten :=
  rfl
@[simp] theorem State.storePix_job (a : Nat) (v : Byte) : (s.storePix a v).job = s.job := rfl
@[simp] theorem State.storePix_pix (a : Nat) (v : Byte) : (s.storePix a v).pix = Memory.write s.pix a v := rfl
@[simp] theorem State.storePix_tbl (a : Nat) (v : Byte) : (s.storePix a v).tbl = s.tbl := rfl
@[simp] theorem State.storePix_moves (a : Nat) (v : Byte) : (s.storePix a v).moves = s.moves := rfl
@[simp] theorem State.storePix_readData (a : Nat) (v : Byte) : (s.storePix a v).readData = s.readData := rfl
@[simp] theorem State.storePix_resets (a : Nat) (v : Byte) : (s.storePix a v).resets = s.resets := rfl
@[simp] theorem State.storePix_draws (a : Nat) (v : Byte) : (s.storePix a v).draws = s.draws := rfl
@[simp] theorem State.storePix_scale (a : Nat) (v : Byte) (d : Axis) : (s.storePix a v).scale d = s.scale d := by cases d <;> rfl

/-! ### storeTbl -/

@[simp] theorem State.storeTbl_cfg (o : Nat) (v : Elem) : (s.storeTbl o v).cfg = s.cfg := rfl
@[simp] theorem State.storeTbl_state (o : Nat) (v : Elem) : (s.storeTbl o v).state = s.state := rfl
@[simp] theorem State.storeTbl_err (o : Nat) (v : Elem) : (s.storeTbl o v).err = s.err := rfl
@[simp] theorem State.storeTbl_desc (o : Nat) (v : Elem) : (s.storeTbl o v).desc = s.desc := rfl
@[simp] theorem State.storeTbl_written (o : Nat) (v : Elem) : (s.storeTbl o v).written = s.written := rfl
@[simp] theorem State.storeTbl_scale0 (o : Nat) (v : Elem) : (s.storeTbl o v).scale0 = s.scale0 := rfl
@[simp] theorem State.storeTbl_scale1 (o : Nat) (v : Elem) : (s.storeTbl o v).scale1 = s.scale1 := rfl
@[simp] theorem State.storeTbl_scale2 (o : Nat) (v : Elem) : (s.storeTbl o v).scale2 = s.scale2 := rfl
@[simp] theorem State.storeTbl_scaleWritten (o : Nat) (v : Elem) : (s.storeTbl o v).scaleWritten = s.scaleWritten :=
  rfl
@[simp] theorem State.storeTbl_job (o : Nat) (v : Elem) : (s.storeTbl o v).job = s.job := rfl
@[simp] theorem State.storeTbl_pix (o : Nat) (v : Elem) : (s.storeTbl o v).pix = s.pix := rfl
@[simp] theorem State.storeTbl_tbl (o : Nat) (v : Elem) : (s.storeTbl o v).tbl = Memory.write s.tbl o v := rfl
@[simp] theorem State.storeTbl_moves (o : Nat) (v : Elem) : (s.storeTbl o v).moves = s.moves := rfl
@[simp] theorem State.storeTbl_readData (o : Nat) (v : Elem) : (s.storeTbl o v).readData = s.readData := rfl
@[simp] theorem State.storeTbl_resets (o : Nat) (v : Elem) : (s.storeTbl o v).resets = s.resets := rfl
@[simp] theorem State.storeTbl_draws (o : Nat) (v : Elem) : (s.storeTbl o v).draws = s.draws := rfl
@[simp] theorem State.storeTbl_scale (o : Nat) (v : Elem) (d : Axis) : (s.storeTbl o v).scale d = s.scale d := by cases d <;> rfl

/-! ### enterError -/

@[simp] theorem State.enterError_cfg (e : ErrCode) : (s.enterError e).cfg = s.cfg := rfl
@[simp] theorem State.enterError_state (e : ErrCode) : (s.enterError e).state = .failed := rfl
@[simp] theorem State.enterError_err (e : ErrCode) : (s.enterError e).err = e := rfl
@[simp] theorem State.enterError_desc (e : ErrCode) : (s.enterError e).desc = s.desc := rfl
@[simp] theorem State.enterError_written (e : ErrCode) : (s.enterError e).written = s.written := rfl
@[simp] theorem State.enterError_scale0 (e : ErrCode) : (s.enterError e).scale0 = s.scale0 := rfl
@[simp] theorem State.enterError_scale1 (e : ErrCode) : (s.enterError e).scale1 = s.scale1 := rfl
@[simp] theorem State.enterError_scale2 (e : ErrCode) : (s.enterError e).scale2 = s.scale2 := rfl
@[simp] theorem State.enterError_scaleWritten (e : ErrCode) : (s.enterError e).scaleWritten = s.scaleWritten := rfl
@[simp] theorem State.enterError_job (e : ErrCode) : (s.enterError e).job = s.job := rfl
@[simp] theorem State.enterError_pix (e : ErrCode) : (s.enterError e).pix = s.pix := rfl
@[simp] theorem State.enterError_tbl (e : ErrCode) : (s.enterError e).tbl = s.tbl := rfl
@[simp] theorem State.enterError_moves (e : ErrCode) : (s.enterError e).moves = s.moves := rfl
@[simp] theorem State.enterError_readData (e : ErrCode) : (s.enterError e).readData = s.readData := rfl
@[simp] theorem State.enterError_resets (e : ErrCode) : (s.enterError e).resets = s.resets := rfl
@[simp] theorem State.enterError_draws (e : ErrCode) : (s.enterError e).draws = s.draws := rfl
@[simp] theorem State.enterError_scale (e : ErrCode) (d : Axis) : (s.enterError e).scale d = s.scale d := by cases d <;> rfl

/-! ### returnToIdle -/

@[simp] theorem State.returnToIdle_cfg : s.returnToIdle.cfg = s.cfg := rfl
@[simp] theorem State.returnToIdle_state : s.returnToIdle.state = .idle := rfl
@[simp] theorem State.returnToIdle_err : s.returnToIdle.err = .noError := rfl
@[simp] theorem State.returnToIdle_desc : s.returnToIdle.desc = s.desc := rfl
@[simp] theorem State.returnToIdle_written : s.returnToIdle.written = s.written := rfl
@[simp] theorem State.returnToIdle_scale0 : s.returnToIdle.scale0 = s.scale0 := rfl
@[simp] theorem State.returnToIdle_scale1 : s.returnToIdle.scale1 = s.scale1 := rfl
@[simp] theorem State.returnToIdle_scale2 : s.returnToIdle.scale2 = s.scale2 := rfl
@[simp] theorem State.returnToIdle_scaleWritten : s.returnToIdle.scaleWritten = s.scaleWritten := rfl
@[simp] theorem State.returnToIdle_job : s.returnToIdle.job = s.job := rfl
@[simp] theorem State.returnToIdle_pix : s.returnToIdle.pix = s.pix := rfl
@[simp] theorem State.returnToIdle_tbl : s.returnToIdle.tbl = s.tbl := rfl
@[simp] theorem State.returnToIdle_moves : s.returnToIdle.moves = s.moves := rfl
@[simp] theorem State.returnToIdle_readData : s.returnToIdle.readData = s.readData := rfl
@[simp] theorem State.returnToIdle_resets : s.returnToIdle.resets = s.resets := rfl
@[simp] theorem State.returnToIdle_draws : s.returnToIdle.draws = s.draws := rfl
@[simp] theorem State.returnToIdle_scale (d : Axis) : s.returnToIdle.scale d = s.scale d := by cases d <;> rfl

/-! ### completionStep -/

@[simp] theorem State.completionStep_cfg : s.completionStep.cfg = s.cfg := rfl
@[simp] theorem State.completionStep_state : s.completionStep.state = .done := rfl
@[simp] theorem State.completionStep_err : s.completionStep.err = .noError := rfl
@[simp] theorem State.completionStep_desc : s.completionStep.desc = s.desc := rfl
@[simp] theorem State.completionStep_written : s.completionStep.written = s.written := rfl
@[simp] theorem State.completionStep_scale0 : s.completionStep.scale0 = s.scale0 := rfl
@[simp] theorem State.completionStep_scale1 : s.completionStep.scale1 = s.scale1 := rfl
@[simp] theorem State.completionStep_scale2 : s.completionStep.scale2 = s.scale2 := rfl
@[simp] theorem State.completionStep_scaleWritten : s.completionStep.scaleWritten = s.scaleWritten := rfl
@[simp] theorem State.completionStep_job : s.completionStep.job = none := rfl
@[simp] theorem State.completionStep_pix : s.completionStep.pix = s.pix := rfl
@[simp] theorem State.completionStep_tbl : s.completionStep.tbl = s.tbl := rfl
@[simp] theorem State.completionStep_moves : s.completionStep.moves = s.moves := rfl
@[simp] theorem State.completionStep_readData : s.completionStep.readData = s.readData := rfl
@[simp] theorem State.completionStep_resets : s.completionStep.resets = s.resets := rfl
@[simp] theorem State.completionStep_draws : s.completionStep.draws = s.draws := rfl
@[simp] theorem State.completionStep_scale (d : Axis) : s.completionStep.scale d = s.scale d := by cases d <;> rfl

/-! ### pixelStep -/

@[simp] theorem State.pixelStep_cfg (j : Job) (y x : Nat) : (s.pixelStep j y x).cfg = s.cfg := rfl
@[simp] theorem State.pixelStep_state (j : Job) (y x : Nat) : (s.pixelStep j y x).state = s.state := rfl
@[simp] theorem State.pixelStep_err (j : Job) (y x : Nat) : (s.pixelStep j y x).err = s.err := rfl
@[simp] theorem State.pixelStep_desc (j : Job) (y x : Nat) : (s.pixelStep j y x).desc = s.desc := rfl
@[simp] theorem State.pixelStep_written (j : Job) (y x : Nat) : (s.pixelStep j y x).written = s.written := rfl
@[simp] theorem State.pixelStep_scale0 (j : Job) (y x : Nat) : (s.pixelStep j y x).scale0 = s.scale0 := rfl
@[simp] theorem State.pixelStep_scale1 (j : Job) (y x : Nat) : (s.pixelStep j y x).scale1 = s.scale1 := rfl
@[simp] theorem State.pixelStep_scale2 (j : Job) (y x : Nat) : (s.pixelStep j y x).scale2 = s.scale2 := rfl
@[simp] theorem State.pixelStep_scaleWritten (j : Job) (y x : Nat) : (s.pixelStep j y x).scaleWritten = s.scaleWritten :=
  rfl
@[simp] theorem State.pixelStep_job (j : Job) (y x : Nat) : (s.pixelStep j y x).job = some { j with cur := j.cur.set y (x + 1) } :=
  rfl
@[simp] theorem State.pixelStep_pix (j : Job) (y x : Nat) : (s.pixelStep j y x).pix = writeBands j.latched y x (s.pixelByte j y x) (List.range j.latched.tc) s.pix :=
  rfl
@[simp] theorem State.pixelStep_tbl (j : Job) (y x : Nat) : (s.pixelStep j y x).tbl = s.tbl := rfl
@[simp] theorem State.pixelStep_moves (j : Job) (y x : Nat) : (s.pixelStep j y x).moves = s.moves := rfl
@[simp] theorem State.pixelStep_readData (j : Job) (y x : Nat) : (s.pixelStep j y x).readData = s.readData := rfl
@[simp] theorem State.pixelStep_resets (j : Job) (y x : Nat) : (s.pixelStep j y x).resets = s.resets := rfl
@[simp] theorem State.pixelStep_draws (j : Job) (y x : Nat) : (s.pixelStep j y x).draws = if j.disturbed then s.draws + 1 else s.draws :=
  rfl
@[simp] theorem State.pixelStep_scale (j : Job) (y x : Nat) (d : Axis) : (s.pixelStep j y x).scale d = s.scale d := by cases d <;> rfl

/-! ### startJob -/

@[simp] theorem State.startJob_cfg : s.startJob.cfg = s.cfg := rfl
@[simp] theorem State.startJob_state : s.startJob.state = .busy := rfl
@[simp] theorem State.startJob_err : s.startJob.err = .noError := rfl
@[simp] theorem State.startJob_desc : s.startJob.desc = s.desc := rfl
@[simp] theorem State.startJob_written : s.startJob.written = s.written := rfl
@[simp] theorem State.startJob_scale0 : s.startJob.scale0 = BitVec.ofNat 32 (scaleConst s.cfg (s.desc.size .axis0)) :=
  rfl
@[simp] theorem State.startJob_scale1 : s.startJob.scale1 = BitVec.ofNat 32 (scaleConst s.cfg (s.desc.size .axis1)) :=
  rfl
@[simp] theorem State.startJob_scale2 : s.startJob.scale2 = BitVec.ofNat 32 (scaleConst s.cfg (s.desc.size .axis2)) :=
  rfl
@[simp] theorem State.startJob_scaleWritten : s.startJob.scaleWritten = true := rfl
@[simp] theorem State.startJob_job : s.startJob.job = some { latched := s.desc, cur := List.replicate s.desc.H 0, disturbed := false } :=
  rfl
@[simp] theorem State.startJob_pix : s.startJob.pix = s.pix := rfl
@[simp] theorem State.startJob_tbl : s.startJob.tbl = s.tbl := rfl
@[simp] theorem State.startJob_moves : s.startJob.moves = s.moves := rfl
@[simp] theorem State.startJob_readData : s.startJob.readData = s.readData := rfl
@[simp] theorem State.startJob_resets : s.startJob.resets = s.resets := rfl
@[simp] theorem State.startJob_draws : s.startJob.draws = s.draws := rfl

/-! ### resetEvent -/

@[simp] theorem State.resetEvent_cfg (torn : List (Nat × List Nat)) : (s.resetEvent torn).cfg = s.cfg := rfl
@[simp] theorem State.resetEvent_state (torn : List (Nat × List Nat)) : (s.resetEvent torn).state = .idle := rfl
@[simp] theorem State.resetEvent_err (torn : List (Nat × List Nat)) : (s.resetEvent torn).err = .noError := rfl
@[simp] theorem State.resetEvent_desc (torn : List (Nat × List Nat)) : (s.resetEvent torn).desc = Bank.uniform 0#32 :=
  rfl
@[simp] theorem State.resetEvent_written (torn : List (Nat × List Nat)) : (s.resetEvent torn).written = Bank.uniform false :=
  rfl
@[simp] theorem State.resetEvent_scale0 (torn : List (Nat × List Nat)) : (s.resetEvent torn).scale0 = 0#32 := rfl
@[simp] theorem State.resetEvent_scale1 (torn : List (Nat × List Nat)) : (s.resetEvent torn).scale1 = 0#32 := rfl
@[simp] theorem State.resetEvent_scale2 (torn : List (Nat × List Nat)) : (s.resetEvent torn).scale2 = 0#32 := rfl
@[simp] theorem State.resetEvent_scaleWritten (torn : List (Nat × List Nat)) : (s.resetEvent torn).scaleWritten = false :=
  rfl
@[simp] theorem State.resetEvent_job (torn : List (Nat × List Nat)) : (s.resetEvent torn).job = none := rfl
@[simp] theorem State.resetEvent_tbl (torn : List (Nat × List Nat)) : (s.resetEvent torn).tbl = s.tbl := rfl
@[simp] theorem State.resetEvent_moves (torn : List (Nat × List Nat)) : (s.resetEvent torn).moves = s.moves := rfl
@[simp] theorem State.resetEvent_readData (torn : List (Nat × List Nat)) : (s.resetEvent torn).readData = s.readData :=
  rfl
@[simp] theorem State.resetEvent_resets (torn : List (Nat × List Nat)) : (s.resetEvent torn).resets = s.resets + 1 :=
  rfl
@[simp] theorem State.resetEvent_draws (torn : List (Nat × List Nat)) : (s.resetEvent torn).draws = s.draws + 1 := rfl

/-! ### writeDesc, which is dropped while BUSY -/

theorem State.writeDesc_busy (r : DReg) (v : Word) (h : s.state = .busy) : s.writeDesc r v = s := by
  simp [State.writeDesc, h]

theorem State.writeDesc_notBusy (r : DReg) (v : Word) (h : s.state ≠ .busy) :
    s.writeDesc r v = { s with desc := s.desc.set r v, written := s.written.set r true } := by
  simp [State.writeDesc, h]

@[simp] theorem State.writeDesc_cfg (r : DReg) (v : Word) : (s.writeDesc r v).cfg = s.cfg := by
  unfold State.writeDesc; split <;> rfl
@[simp] theorem State.writeDesc_state (r : DReg) (v : Word) : (s.writeDesc r v).state = s.state := by
  unfold State.writeDesc; split <;> rfl
@[simp] theorem State.writeDesc_err (r : DReg) (v : Word) : (s.writeDesc r v).err = s.err := by
  unfold State.writeDesc; split <;> rfl
@[simp] theorem State.writeDesc_scale0 (r : DReg) (v : Word) : (s.writeDesc r v).scale0 = s.scale0 := by
  unfold State.writeDesc; split <;> rfl
@[simp] theorem State.writeDesc_scale1 (r : DReg) (v : Word) : (s.writeDesc r v).scale1 = s.scale1 := by
  unfold State.writeDesc; split <;> rfl
@[simp] theorem State.writeDesc_scale2 (r : DReg) (v : Word) : (s.writeDesc r v).scale2 = s.scale2 := by
  unfold State.writeDesc; split <;> rfl
@[simp] theorem State.writeDesc_scaleWritten (r : DReg) (v : Word) : (s.writeDesc r v).scaleWritten = s.scaleWritten := by
  unfold State.writeDesc; split <;> rfl
@[simp] theorem State.writeDesc_job (r : DReg) (v : Word) : (s.writeDesc r v).job = s.job := by
  unfold State.writeDesc; split <;> rfl
@[simp] theorem State.writeDesc_pix (r : DReg) (v : Word) : (s.writeDesc r v).pix = s.pix := by
  unfold State.writeDesc; split <;> rfl
@[simp] theorem State.writeDesc_tbl (r : DReg) (v : Word) : (s.writeDesc r v).tbl = s.tbl := by
  unfold State.writeDesc; split <;> rfl
@[simp] theorem State.writeDesc_moves (r : DReg) (v : Word) : (s.writeDesc r v).moves = s.moves := by
  unfold State.writeDesc; split <;> rfl
@[simp] theorem State.writeDesc_readData (r : DReg) (v : Word) : (s.writeDesc r v).readData = s.readData := by
  unfold State.writeDesc; split <;> rfl
@[simp] theorem State.writeDesc_resets (r : DReg) (v : Word) : (s.writeDesc r v).resets = s.resets := by
  unfold State.writeDesc; split <;> rfl
@[simp] theorem State.writeDesc_draws (r : DReg) (v : Word) : (s.writeDesc r v).draws = s.draws := by
  unfold State.writeDesc; split <;> rfl

/-! ### What a descriptor or SCALE register holds -/

theorem State.descValue_written (r : DReg) (h : s.written.get r = true) : s.descValue r = s.desc.get r := by
  simp [State.descValue, h]

theorem State.descValue_unwritten (r : DReg) (h : s.written.get r = false) :
    s.descValue r = Config.unwrittenRegister s.resets (Reg.number (.desc r)) := by
  simp [State.descValue, h]

theorem State.scaleValue_written (d : Axis) (h : s.scaleWritten = true) : s.scaleValue d = s.scale d := by
  simp [State.scaleValue, h]

theorem State.scaleValue_unwritten (d : Axis) (h : s.scaleWritten = false) :
    s.scaleValue d = Config.unwrittenRegister s.resets (Reg.number (.scale d)) := by
  simp [State.scaleValue, h]

/-! ### reset -/

theorem State.reset_eq_resetWith : State.reset = State.resetWith Cfg.standard := rfl

end Sys2Proof.Machine
end

