-- ==== Sys2Proof/Laws/Memory.lean ====
section
/-! SUPPORT. What the memory operations do: read after write, and the canonical form. -/

namespace Sys2Proof.Machine

variable {w : Nat}

@[simp] theorem Memory.read_nil (a : Nat) : Memory.read ([] : List (Nat × BitVec w)) a = Memory.unlisted w := rfl

theorem Memory.read_cons (p : Nat × BitVec w) (m : List (Nat × BitVec w)) (a : Nat) :
    Memory.read (p :: m) a = if p.1 = a then p.2 else Memory.read m a := rfl

/-- The canonical form of a non-empty memory: the head is no unlisted value, its address is below all others, and
the rest is in canonical form. -/
theorem Memory.wf_cons_iff (p : Nat × BitVec w) (m : List (Nat × BitVec w)) :
    Memory.wf (p :: m) = true ↔
      p.2 ≠ Memory.unlisted w ∧ (∀ q ∈ m, p.1 < q.1) ∧ Memory.wf m = true := by
  induction m generalizing p with
  | nil => simp [Memory.wf]
  | cons q m ih =>
    rw [Memory.wf, Bool.and_eq_true, Bool.and_eq_true, bne_iff_ne, decide_eq_true_eq]
    constructor
    · rintro ⟨hp, hpq, hq⟩
      refine ⟨hp, ?_, hq⟩
      intro r hr
      rcases List.mem_cons.1 hr with rfl | hr
      · exact hpq
      · exact hpq.trans (((ih q).1 hq).2.1 r hr)
    · rintro ⟨hp, hall, hq⟩
      exact ⟨hp, hall q (by simp), hq⟩

/-- An address below every listed address reads as unlisted. -/
theorem Memory.read_of_lt (m : List (Nat × BitVec w)) (a : Nat) (h : ∀ q ∈ m, a < q.1) :
    Memory.read m a = Memory.unlisted w := by
  induction m with
  | nil => rfl
  | cons p m ih =>
    have hp := h p (by simp)
    rw [Memory.read_cons, if_neg (by omega)]
    exact ih fun q hq => h q (by simp [hq])

/-- A write leaves every other address alone, in any memory. -/
theorem Memory.read_write_ne (m : List (Nat × BitVec w)) (a b : Nat) (v : BitVec w) (h : b ≠ a) :
    Memory.read (Memory.write m a v) b = Memory.read m b := by
  induction m with
  | nil =>
    unfold Memory.write
    split
    · rfl
    · simp [Memory.read, Ne.symm h]
  | cons p m ih =>
    unfold Memory.write
    split
    · split
      · rfl
      · simp [Memory.read, Ne.symm h]
    · split
      · next hap =>
        split <;> simp [Memory.read, ← hap, Ne.symm h]
      · simp only [Memory.read_cons, ih]

/-- A read after a write to the same address gives the value written. -/
theorem Memory.read_write_same (m : List (Nat × BitVec w)) (a : Nat) (v : BitVec w) (h : Memory.wf m = true) :
    Memory.read (Memory.write m a v) a = v := by
  induction m with
  | nil =>
    unfold Memory.write
    split
    · next hv => simp [hv]
    · simp [Memory.read]
  | cons p m ih =>
    obtain ⟨_, hlt, hm⟩ := (Memory.wf_cons_iff p m).1 h
    unfold Memory.write
    split
    · next hap =>
      split
      · next hv =>
        rw [Memory.read_of_lt _ _ (by
          intro q hq
          rcases List.mem_cons.1 hq with rfl | hq
          · exact hap
          · exact hap.trans (hlt q hq)), hv]
      · simp [Memory.read]
    · split
      · next hap =>
        split
        · next hv => rw [Memory.read_of_lt _ _ (by rw [hap]; exact hlt), hv]
        · simp [Memory.read]
      · next hap =>
        rw [Memory.read_cons, if_neg (by omega)]
        exact ih hm

/-- A read after a write, at any address. -/
theorem Memory.read_write (m : List (Nat × BitVec w)) (a b : Nat) (v : BitVec w) (h : Memory.wf m = true) :
    Memory.read (Memory.write m a v) b = if b = a then v else Memory.read m b := by
  split
  · next hb => rw [hb, Memory.read_write_same m a v h]
  · next hb => exact Memory.read_write_ne m a b v hb

/-- Every entry of a memory after a write is an old one or the one written. -/
theorem Memory.mem_write {m : List (Nat × BitVec w)} {a : Nat} {v : BitVec w} {q : Nat × BitVec w}
    (h : q ∈ Memory.write m a v) : q ∈ m ∨ q = (a, v) := by
  induction m with
  | nil =>
    unfold Memory.write at h
    split at h <;> simp_all
  | cons p m ih =>
    unfold Memory.write at h
    split at h
    · split at h <;> simp_all
      all_goals tauto
    · split at h
      · split at h <;> simp_all
        all_goals tauto
      · rcases List.mem_cons.1 h with rfl | h
        · simp
        · rcases ih h with h | h
          · simp [h]
          · exact .inr h

/-- A write keeps the canonical form. -/
theorem Memory.wf_write (m : List (Nat × BitVec w)) (a : Nat) (v : BitVec w) (h : Memory.wf m = true) :
    Memory.wf (Memory.write m a v) = true := by
  induction m with
  | nil =>
    unfold Memory.write
    split
    · rfl
    · next hv => simp [Memory.wf, hv]
  | cons p m ih =>
    obtain ⟨hp, hlt, hm⟩ := (Memory.wf_cons_iff p m).1 h
    unfold Memory.write
    split
    · next hap =>
      split
      · exact h
      · next hv =>
        refine (Memory.wf_cons_iff _ _).2 ⟨hv, ?_, h⟩
        intro q hq
        rcases List.mem_cons.1 hq with rfl | hq
        · exact hap
        · exact hap.trans (hlt q hq)
    · split
      · next hap =>
        split
        · exact hm
        · next hv => exact (Memory.wf_cons_iff _ _).2 ⟨hv, by rw [hap]; exact hlt, hm⟩
      · next hap hne =>
        refine (Memory.wf_cons_iff _ _).2 ⟨hp, ?_, ih hm⟩
        intro q hq
        rcases Memory.mem_write hq with hq | rfl
        · exact hlt q hq
        · show p.1 < a
          omega

theorem Memory.below_iff (n : Nat) (m : List (Nat × BitVec w)) :
    Memory.below n m = true ↔ ∀ p ∈ m, p.1 < n := by
  simp [Memory.below]

/-- A write below `n` keeps a memory below `n`. -/
theorem Memory.below_write (m : List (Nat × BitVec w)) (n a : Nat) (v : BitVec w)
    (h : Memory.below n m = true) (ha : a < n) : Memory.below n (Memory.write m a v) = true := by
  rw [Memory.below_iff] at h ⊢
  intro q hq
  rcases Memory.mem_write hq with hq | rfl
  · exact h q hq
  · exact ha

/-- In canonical form the entry of an address is what it reads as. -/
theorem Memory.read_of_mem {m : List (Nat × BitVec w)} {p : Nat × BitVec w} (h : Memory.wf m = true) (hp : p ∈ m) :
    Memory.read m p.1 = p.2 := by
  induction m with
  | nil => cases hp
  | cons q m ih =>
    obtain ⟨_, hlt, hm⟩ := (Memory.wf_cons_iff q m).1 h
    rcases List.mem_cons.1 hp with rfl | hp
    · simp [Memory.read]
    · have := hlt p hp
      rw [Memory.read_cons, if_neg (by omega)]
      exact ih hm hp

/-- Memories in canonical form that read alike are equal. -/
theorem Memory.ext_of_read {m m' : List (Nat × BitVec w)} (h : Memory.wf m = true) (h' : Memory.wf m' = true)
    (hr : ∀ a, Memory.read m a = Memory.read m' a) : m = m' := by
  induction m generalizing m' with
  | nil =>
    cases m' with
    | nil => rfl
    | cons q m' =>
      have h1 := (Memory.wf_cons_iff q m').1 h'
      exact absurd ((hr q.1).symm.trans rfl) (by rw [Memory.read_of_mem h' (by simp)]; exact h1.1)
  | cons p m ih =>
    obtain ⟨hp, hlt, hm⟩ := (Memory.wf_cons_iff p m).1 h
    cases m' with
    | nil => exact absurd (hr p.1) (by rw [Memory.read_of_mem h (by simp)]; exact hp)
    | cons q m' =>
      obtain ⟨hq, hlt', hm'⟩ := (Memory.wf_cons_iff q m').1 h'
      have key : p.1 = q.1 := by
        rcases Nat.lt_trichotomy p.1 q.1 with hlt1 | heq | hlt1
        · exfalso
          have h1 := hr p.1
          rw [Memory.read_of_mem h (by simp), Memory.read_of_lt (q :: m') p.1 (by
            intro r hr
            rcases List.mem_cons.1 hr with rfl | hr
            · exact hlt1
            · exact hlt1.trans (hlt' r hr))] at h1
          exact hp h1
        · exact heq
        · exfalso
          have h1 := hr q.1
          rw [Memory.read_of_mem h' (by simp), Memory.read_of_lt (p :: m) q.1 (by
            intro r hr
            rcases List.mem_cons.1 hr with rfl | hr
            · exact hlt1
            · exact hlt1.trans (hlt r hr))] at h1
          exact hq h1.symm
      have hv : p.2 = q.2 := by
        have h1 := hr p.1
        rwa [Memory.read_of_mem h (by simp), key, Memory.read_of_mem h' (by simp)] at h1
      have htail : m = m' := by
        refine ih hm hm' fun a => ?_
        by_cases ha : a = p.1
        · subst ha
          rw [Memory.read_of_lt m _ hlt, key, Memory.read_of_lt m' _ hlt']
        · have h1 := hr a
          rwa [Memory.read_cons, Memory.read_cons, if_neg (Ne.symm ha), if_neg (by rw [← key]; exact Ne.symm ha)] at h1
      rw [htail, Prod.ext key hv]

end Sys2Proof.Machine
end

