-- ==== Sys2Proof/Laws/Registers.lean ====
section
/-! SUPPORT. The register map, the banks and the bounded searches. -/

namespace Sys2Proof.Machine

/-! ### Banks -/

@[simp] theorem Bank.get_set_same {α : Type} (b : Bank α) (r : DReg) (a : α) : (b.set r a).get r = a := by
  cases r <;> rfl

theorem Bank.get_set_ne {α : Type} (b : Bank α) (r q : DReg) (a : α) (h : q ≠ r) :
    (b.set r a).get q = b.get q := by
  cases r <;> cases q <;> first | rfl | exact absurd rfl h

theorem Bank.allSet_iff (b : Bank Bool) : b.allSet = true ↔ ∀ r, b.get r = true := by
  constructor
  · intro h r
    simp only [Bank.allSet, Bool.and_eq_true] at h
    obtain ⟨⟨⟨⟨⟨⟨⟨⟨⟨⟨⟨⟨⟨⟨⟨h0, h1⟩, h2⟩, h3⟩, h4⟩, h5⟩, h6⟩, h7⟩, h8⟩, h9⟩, h10⟩, h11⟩, h12⟩, h13⟩, h14⟩, h15⟩ := h
    cases r <;> assumption
  · intro h
    simp only [Bank.allSet, Bool.and_eq_true]
    exact ⟨⟨⟨⟨⟨⟨⟨⟨⟨⟨⟨⟨⟨⟨⟨h .tableChannels, h .size1D⟩, h .size2D⟩, h .size3D⟩, h .width⟩, h .height⟩, h .inType⟩,
      h .inBands⟩, h .inPstride⟩, h .inRstride⟩, h .inBase⟩, h .outType⟩, h .outBands⟩, h .outPstride⟩,
      h .outRstride⟩, h .outBase⟩

@[simp] theorem Bank.get_uniform {α : Type} (a : α) (r : DReg) : (Bank.uniform a).get r = a := by
  cases r <;> rfl

/-! ### Bounded searches -/

theorem allBelow_iff (n : Nat) (f : Nat → Bool) : allBelow n f = true ↔ ∀ i, i < n → f i = true := by
  induction n with
  | zero => simp [allBelow]
  | succ n ih =>
    rw [allBelow, Bool.and_eq_true, ih]
    constructor
    · rintro ⟨hn, h⟩ i hi
      rcases Nat.lt_succ_iff_lt_or_eq.1 hi with hi | rfl
      · exact h i hi
      · exact hn
    · intro h
      exact ⟨h n (by omega), fun i hi => h i (by omega)⟩

theorem anyBelow_iff (n : Nat) (f : Nat → Bool) : anyBelow n f = true ↔ ∃ i, i < n ∧ f i = true := by
  induction n with
  | zero => simp [anyBelow]
  | succ n ih =>
    rw [anyBelow, Bool.or_eq_true, ih]
    constructor
    · rintro (hn | ⟨i, hi, h⟩)
      · exact ⟨n, by omega, hn⟩
      · exact ⟨i, by omega, h⟩
    · rintro ⟨i, hi, h⟩
      rcases Nat.lt_succ_iff_lt_or_eq.1 hi with hi | rfl
      · exact .inr ⟨i, hi, h⟩
      · exact .inl h

/-- The byte ranges do not meet, for ranges that are not empty. -/
theorem apart_iff (a m b n : Nat) (hm : 0 < m) (hn : 0 < n) :
    apart a m b n = true ↔ ∀ i j, i < m → j < n → a + i ≠ b + j := by
  simp only [apart, Bool.or_eq_true, decide_eq_true_eq]
  constructor
  · rintro (h | h) i j hi hj <;> omega
  · intro h
    by_contra hc
    rw [not_or] at hc
    rcases Nat.lt_or_ge a b with hab | hab
    · exact h (b - a) 0 (by omega) hn (by omega)
    · exact h 0 (a - b) hm (by omega) (by omega)

/-! ### The register map -/

/-- Every register stands at its offset. -/
theorem Reg.ofOffset_offset (r : Reg) : Reg.ofOffset r.offset = some r := by
  cases r with
  | cmd => rfl
  | status => rfl
  | params => rfl
  | desc r => cases r <;> rfl
  | scale d => cases d <;> rfl

/-- Every register is in the list of registers at its number. -/
theorem Reg.all_number (n : Nat) (r : Reg) (h : Reg.all[n]? = some r) : r.number = n := by
  have hn : n < 22 := by
    by_contra hc
    rw [List.getElem?_eq_none (by simp [Reg.all]; omega)] at h
    cases h
  interval_cases n <;> (simp [Reg.all] at h; subst h; rfl)

/-- Only the register's own offset leads to it. -/
theorem Reg.eq_offset_of_ofOffset {off : Nat} {r : Reg} (h : Reg.ofOffset off = some r) : off = r.offset := by
  unfold Reg.ofOffset at h
  split at h
  · next h4 =>
    have := Reg.all_number _ _ h
    unfold Reg.offset
    omega
  · cases h

end Sys2Proof.Machine
end

