-- ==== Sys2Proof/Laws/Sequencer.lean ====
section
/-! SUPPORT. What the sampler's steps do: the write-back, the choice of the next pixel, one step. -/

namespace Sys2Proof.Machine

/-! ### The write-back -/

@[simp] theorem writeBands_nil (L : Descriptor) (y x : Nat) (out : Nat → Byte) (pix : List Host.Cell) :
    writeBands L y x out [] pix = pix := rfl

theorem writeBands_cons (L : Descriptor) (y x : Nat) (out : Nat → Byte) (ch : Nat) (bands : List Nat)
    (pix : List Host.Cell) :
    writeBands L y x out (ch :: bands) pix =
      writeBands L y x out bands (Memory.write pix (sampleAddr L .output y x ch) (out ch)) := rfl

/-- The samples of one pixel lie at consecutive addresses. -/
theorem sampleAddr_inj (L : Descriptor) (i : Image) (y x b c : Nat) :
    sampleAddr L i y x b = sampleAddr L i y x c ↔ b = c := by
  unfold sampleAddr; omega

/-- The write-back leaves every address alone that is no address of its bands. -/
theorem read_writeBands_other (L : Descriptor) (y x : Nat) (out : Nat → Byte) (bands : List Nat)
    (pix : List Host.Cell) (a : Nat) (h : ∀ ch ∈ bands, a ≠ sampleAddr L .output y x ch) :
    Memory.read (writeBands L y x out bands pix) a = Memory.read pix a := by
  induction bands generalizing pix with
  | nil => rfl
  | cons ch bands ih =>
    rw [writeBands_cons, ih _ fun c hc => h c (by simp [hc])]
    exact Memory.read_write_ne _ _ _ _ (h ch (by simp))

/-- The write-back keeps the canonical form. -/
theorem wf_writeBands (L : Descriptor) (y x : Nat) (out : Nat → Byte) (bands : List Nat) (pix : List Host.Cell)
    (h : Memory.wf pix = true) : Memory.wf (writeBands L y x out bands pix) = true := by
  induction bands generalizing pix with
  | nil => exact h
  | cons ch bands ih => exact ih _ (Memory.wf_write _ _ _ h)

/-- The write-back of a pixel inside PIX keeps PIX inside its space. -/
theorem below_writeBands (L : Descriptor) (y x n : Nat) (out : Nat → Byte) (bands : List Nat) (pix : List Host.Cell)
    (h : Memory.below n pix = true) (ha : ∀ ch ∈ bands, sampleAddr L .output y x ch < n) :
    Memory.below n (writeBands L y x out bands pix) = true := by
  induction bands generalizing pix with
  | nil => exact h
  | cons ch bands ih =>
    exact ih _ (Memory.below_write _ _ _ _ h (ha ch (by simp))) fun c hc => ha c (by simp [hc])

/-- After the write-back each of its bands holds its sample. -/
theorem read_writeBands_band (L : Descriptor) (y x : Nat) (out : Nat → Byte) (bands : List Nat)
    (pix : List Host.Cell) (hwf : Memory.wf pix = true) (ch : Nat) (h : ch ∈ bands) :
    Memory.read (writeBands L y x out bands pix) (sampleAddr L .output y x ch) = out ch := by
  induction bands generalizing pix with
  | nil => cases h
  | cons c bands ih =>
    rw [writeBands_cons]
    by_cases hm : ch ∈ bands
    · exact ih _ (Memory.wf_write _ _ _ hwf) hm
    · rcases List.mem_cons.1 h with rfl | h
      · rw [read_writeBands_other]
        · exact Memory.read_write_same _ _ _ hwf
        · intro d hd he
          exact hm ((sampleAddr_inj L .output y x ch d).1 he ▸ hd)
      · exact absurd h hm

/-- The write-back at any address. -/
theorem read_writeBands (L : Descriptor) (y x : Nat) (out : Nat → Byte) (bands : List Nat) (pix : List Host.Cell)
    (hwf : Memory.wf pix = true) (a : Nat) :
    (∃ ch ∈ bands, a = sampleAddr L .output y x ch ∧ Memory.read (writeBands L y x out bands pix) a = out ch) ∨
      ((∀ ch ∈ bands, a ≠ sampleAddr L .output y x ch) ∧
        Memory.read (writeBands L y x out bands pix) a = Memory.read pix a) := by
  by_cases h : ∃ ch ∈ bands, a = sampleAddr L .output y x ch
  · obtain ⟨ch, hc, rfl⟩ := h
    exact .inl ⟨ch, hc, rfl, read_writeBands_band L y x out bands pix hwf ch hc⟩
  · rw [not_exists] at h
    have h' : ∀ ch ∈ bands, a ≠ sampleAddr L .output y x ch := fun ch hc he => h ch ⟨hc, he⟩
    exact .inr ⟨h', read_writeBands_other L y x out bands pix a h'⟩

/-! ### The write-back of a whole output -/

theorem mem_pixels (L : Descriptor) (p : Nat × Nat) : p ∈ pixels L ↔ p.1 < L.H ∧ p.2 < L.W := by
  obtain ⟨y, x⟩ := p
  simp [pixels]

/-- At any address: the new byte where one of the pixels has a band there, else the old one. -/
theorem read_writePixels (L : Descriptor) (out : Nat → Byte) (ps : List (Nat × Nat)) (pix : List Host.Cell)
    (hwf : Memory.wf pix = true) (a : Nat) :
    ((∃ p ∈ ps, ∃ ch < L.tc, a = sampleAddr L .output p.1 p.2 ch) →
      Memory.read (ps.foldl (fun m p => writeBands L p.1 p.2 (fun ch => out (sampleAddr L .output p.1 p.2 ch))
        (List.range L.tc) m) pix) a = out a) ∧
    ((¬ ∃ p ∈ ps, ∃ ch < L.tc, a = sampleAddr L .output p.1 p.2 ch) →
      Memory.read (ps.foldl (fun m p => writeBands L p.1 p.2 (fun ch => out (sampleAddr L .output p.1 p.2 ch))
        (List.range L.tc) m) pix) a = Memory.read pix a) := by
  induction ps generalizing pix with
  | nil => simp
  | cons p ps ih =>
    obtain ⟨h1, h2⟩ := ih _ (wf_writeBands L p.1 p.2 (fun ch => out (sampleAddr L .output p.1 p.2 ch))
      (List.range L.tc) pix hwf)
    rw [List.foldl_cons]
    by_cases hps : ∃ q ∈ ps, ∃ ch < L.tc, a = sampleAddr L .output q.1 q.2 ch
    · refine ⟨fun _ => h1 hps, fun hn => ?_⟩
      obtain ⟨q, hq, e⟩ := hps
      exact absurd ⟨q, List.mem_cons_of_mem _ hq, e⟩ hn
    · rw [h2 hps]
      rcases read_writeBands L p.1 p.2 (fun ch => out (sampleAddr L .output p.1 p.2 ch)) (List.range L.tc) pix hwf a
        with ⟨ch, hc, rfl, hr⟩ | ⟨hne, hr⟩
      · exact ⟨fun _ => hr, fun hn => absurd ⟨p, List.mem_cons_self, ch, List.mem_range.1 hc, rfl⟩ hn⟩
      · refine ⟨?_, fun _ => hr⟩
        rintro ⟨q, hq, ch, hch, e⟩
        rcases List.mem_cons.1 hq with rfl | hq
        · exact absurd e (hne ch (List.mem_range.2 hch))
        · exact absurd ⟨q, hq, ch, hch, e⟩ hps

/-- The write-back of a whole output keeps the canonical form. -/
theorem wf_writeOutput (L : Descriptor) (out : Nat → Byte) (pix : List Host.Cell) (h : Memory.wf pix = true) :
    Memory.wf (writeOutput L out pix) = true := by
  unfold writeOutput
  induction pixels L generalizing pix with
  | nil => exact h
  | cons p ps ih => exact ih _ (wf_writeBands _ _ _ _ _ _ h)

/-- The write-back of an output inside PIX keeps PIX inside its space. -/
theorem below_writeOutput (L : Descriptor) (out : Nat → Byte) (n : Nat) (pix : List Host.Cell)
    (h : Memory.below n pix = true)
    (ha : ∀ y x ch, y < L.H → x < L.W → ch < L.tc → sampleAddr L .output y x ch < n) :
    Memory.below n (writeOutput L out pix) = true := by
  unfold writeOutput
  have hp : ∀ p ∈ pixels L, p.1 < L.H ∧ p.2 < L.W := fun p => (mem_pixels L p).1
  revert hp
  induction pixels L generalizing pix with
  | nil => exact fun _ => h
  | cons p ps ih =>
    intro hp
    obtain ⟨hy, hx⟩ := hp p List.mem_cons_self
    exact ih _ (below_writeBands _ _ _ _ _ _ _ h fun ch hc => ha _ _ _ hy hx (List.mem_range.1 hc))
      fun q hq => hp q (List.mem_cons_of_mem _ hq)

/-! ### The byte a pixel step writes -/

theorem State.pixelByte_undisturbed (s : State) (j : Job) (h : j.disturbed = false) :
    s.pixelByte j = pixelResult s.cfg j.latched s.pix s.tbl := by
  funext y x ch
  simp [State.pixelByte, h]

theorem State.pixelByte_disturbed (s : State) (j : Job) (h : j.disturbed = true) (y x ch : Nat) :
    s.pixelByte j y x ch = Config.openByte s.draws (sampleAddr j.latched .output y x ch) := by
  simp [State.pixelByte, h]

/-! ### The next pixel -/

theorem Job.enabledAt_eq_some (j : Job) (y x : Nat) :
    j.enabledAt y = some x ↔ j.cur[y]? = some x ∧ x < j.latched.W := by
  unfold Job.enabledAt
  cases h : j.cur[y]? with
  | none => simp
  | some n =>
    by_cases hn : n < j.latched.W
    · simp only [hn, if_true, Option.some.injEq]
      constructor
      · rintro rfl; exact ⟨rfl, hn⟩
      · exact fun h => h.1
    · simp only [hn, if_false, Option.some.injEq]
      constructor
      · intro h; cases h
      · rintro ⟨rfl, h⟩; exact absurd h hn

theorem leastUnfinished_eq_none (W y : Nat) (cur : List Nat) :
    leastUnfinished W y cur = none ↔ ∀ x ∈ cur, W ≤ x := by
  induction cur generalizing y with
  | nil => simp [leastUnfinished]
  | cons x cur ih =>
    unfold leastUnfinished
    split
    · next h => simp; omega
    · next h => rw [ih]; simp; omega

theorem leastUnfinished_eq_some {W y : Nat} {cur : List Nat} {v x : Nat}
    (h : leastUnfinished W y cur = some (v, x)) :
    y ≤ v ∧ cur[v - y]? = some x ∧ x < W ∧ ∀ i, i < v - y → ∀ n, cur[i]? = some n → W ≤ n := by
  induction cur generalizing y with
  | nil => cases h
  | cons a cur ih =>
    unfold leastUnfinished at h
    split at h
    · next ha =>
      obtain ⟨rfl, rfl⟩ := Prod.mk.injEq .. ▸ Option.some.inj h
      refine ⟨le_refl _, by simp, ha, ?_⟩
      intro i hi
      omega
    · next ha =>
      obtain ⟨h1, h2, h3, h4⟩ := ih h
      have hv : v - y = (v - (y + 1)) + 1 := by omega
      refine ⟨by omega, by rw [hv, List.getElem?_cons_succ]; exact h2, h3, ?_⟩
      intro i hi n hn
      cases i with
      | zero => simp at hn; omega
      | succ i =>
        rw [List.getElem?_cons_succ] at hn
        exact h4 i (by omega) n hn

/-- No pixel is next exactly when every cursor has reached WIDTH. -/
theorem Job.nextPixel_eq_none (j : Job) : j.nextPixel = none ↔ ∀ x ∈ j.cur, j.latched.W ≤ x :=
  leastUnfinished_eq_none _ _ _

/-- The next pixel is an unfinished row's, and no row before it is unfinished. -/
theorem Job.nextPixel_eq_some {j : Job} {y x : Nat} (h : j.nextPixel = some (y, x)) :
    j.cur[y]? = some x ∧ x < j.latched.W ∧ ∀ i, i < y → ∀ n, j.cur[i]? = some n → j.latched.W ≤ n := by
  have h' := leastUnfinished_eq_some h
  simp only [Nat.sub_zero, Nat.zero_le, true_and] at h'
  exact h'

/-! ### One step of the sampler -/

/-- Everything a step of the sampler can do: nothing, the pixel step of an unfinished row, or the completion step
when every row is finished. -/
theorem State.samplerStep_cases (s : State) (row : Option Nat) :
    s.samplerStep row = s ∨
      (∃ j y x, s.state = .busy ∧ s.job = some j ∧ j.cur[y]? = some x ∧ x < j.latched.W ∧
        s.samplerStep row = s.pixelStep j y x) ∨
      (∃ j, s.state = .busy ∧ s.job = some j ∧ (∀ x ∈ j.cur, j.latched.W ≤ x) ∧
        s.samplerStep row = s.completionStep) := by
  cases hs : s.state <;> try (left; simp [State.samplerStep, hs]; done)
  cases hj : s.job with
  | none => left; simp [State.samplerStep, hs, hj]
  | some j =>
    cases row with
    | some y =>
      cases he : j.enabledAt y with
      | none => left; simp [State.samplerStep, hs, hj, he]
      | some x =>
        obtain ⟨h1, h2⟩ := (j.enabledAt_eq_some y x).1 he
        right; left
        exact ⟨j, y, x, rfl, rfl, h1, h2, by simp [State.samplerStep, hs, hj, he]⟩
    | none =>
      cases hn : j.nextPixel with
      | none =>
        right; right
        exact ⟨j, rfl, rfl, (j.nextPixel_eq_none).1 hn, by simp [State.samplerStep, hs, hj, hn]⟩
      | some p =>
        obtain ⟨y, x⟩ := p
        obtain ⟨h1, h2, _⟩ := Job.nextPixel_eq_some hn
        right; left
        exact ⟨j, y, x, rfl, rfl, h1, h2, by simp [State.samplerStep, hs, hj, hn]⟩

/-- A step of the sampler changes nothing outside a job. -/
theorem State.samplerStep_notBusy (s : State) (row : Option Nat) (h : s.state ≠ .busy) : s.samplerStep row = s := by
  rcases s.samplerStep_cases row with h1 | ⟨_, _, _, hb, _⟩ | ⟨_, hb, _⟩
  · exact h1
  · exact absurd hb h
  · exact absurd hb h

/-! ### The reset event -/

/-- PIX after torn write-backs, at any address: the old byte, or the new byte of a band of a pixel in flight. -/
theorem read_tornWrites (j : Job) (out : Nat → Nat → Nat → Byte) (torn : List (Nat × List Nat))
    (pix : List Host.Cell) (hwf : Memory.wf pix = true) (a : Nat) :
    Memory.read (tornWrites j out torn pix) a = Memory.read pix a ∨
      ∃ y x ch, j.cur[y]? = some x ∧ x < j.latched.W ∧ ch < j.latched.tc ∧ a = sampleAddr j.latched .output y x ch ∧
        Memory.read (tornWrites j out torn pix) a = out y x ch := by
  unfold tornWrites
  induction torn generalizing pix with
  | nil => exact .inl rfl
  | cons p torn ih =>
    rw [List.foldl_cons]
    cases he : j.enabledAt p.1 with
    | none => exact ih pix hwf
    | some x =>
      obtain ⟨h1, h2⟩ := (j.enabledAt_eq_some p.1 x).1 he
      rcases ih _ (wf_writeBands j.latched p.1 x (out p.1 x) (p.2.filter (· < j.latched.tc)) pix hwf) with h | h
      · rcases read_writeBands j.latched p.1 x (out p.1 x) (p.2.filter (· < j.latched.tc)) pix hwf a with
          ⟨ch, hc, rfl, hr⟩ | ⟨_, hr⟩
        · refine .inr ⟨p.1, x, ch, h1, h2, ?_, rfl, h.trans hr⟩
          simpa using (List.mem_filter.1 hc).2
        · exact .inl (h.trans hr)
      · exact .inr h

/-- Torn write-backs keep the canonical form. -/
theorem wf_tornWrites (j : Job) (out : Nat → Nat → Nat → Byte) (torn : List (Nat × List Nat))
    (pix : List Host.Cell) (hwf : Memory.wf pix = true) : Memory.wf (tornWrites j out torn pix) = true := by
  unfold tornWrites
  induction torn generalizing pix with
  | nil => exact hwf
  | cons p torn ih =>
    rw [List.foldl_cons]
    apply ih
    split
    · exact wf_writeBands _ _ _ _ _ _ hwf
    · exact hwf

end Sys2Proof.Machine
end

