-- ==== Sys2Proof/Laws/Commands.lean ====
section
/-! SUPPORT. What the commands and the moves can do, said once. -/

namespace Sys2Proof.Machine

theorem exec_nop (s : State) : exec .nop s = execNop s := rfl
theorem exec_xform (s : State) : exec .xform s = execXform s := rfl
theorem exec_ack (s : State) : exec .ack s = execAck s := rfl

/-- Everything an XFORM can answer. -/
theorem execXform_cases (s : State) :
    (s.state = .busy ∧ execXform s = .next s) ∨
      (s.state ≠ .busy ∧ s.written.allSet = false ∧ execXform s = .refused .descriptorUnwritten) ∨
      (s.state ≠ .busy ∧ s.written.allSet = true ∧ validate s.desc ≠ .noError ∧
        execXform s = .next (s.enterError (validate s.desc))) ∨
      (∃ r, s.state ≠ .busy ∧ s.written.allSet = true ∧ validate s.desc = .noError ∧
        precondition s.cfg s.desc = some r ∧ execXform s = .refused r) ∨
      (s.state ≠ .busy ∧ s.written.allSet = true ∧ validate s.desc = .noError ∧
        precondition s.cfg s.desc = none ∧ execXform s = .next s.startJob) := by
  by_cases hb : s.state = .busy
  · exact .inl ⟨hb, by simp [execXform, hb]⟩
  cases hw : s.written.allSet with
  | false => exact .inr (.inl ⟨hb, rfl, by simp [execXform, hb, hw]⟩)
  | true =>
    cases hv : validate s.desc with
    | noError =>
      cases hp : precondition s.cfg s.desc with
      | some r => exact .inr (.inr (.inr (.inl ⟨r, hb, rfl, rfl, rfl, by simp [execXform, hb, hw, hv, hp]⟩)))
      | none => exact .inr (.inr (.inr (.inr ⟨hb, rfl, rfl, rfl, by simp [execXform, hb, hw, hv, hp]⟩)))
    | invalidArgument => exact .inr (.inr (.inl ⟨hb, rfl, by simp, by simp [execXform, hb, hw, hv]⟩))
    | modeMismatch => exact .inr (.inr (.inl ⟨hb, rfl, by simp, by simp [execXform, hb, hw, hv]⟩))

/-- Everything an ACK can answer. -/
theorem execAck_cases (s : State) :
    ((s.state = .done ∨ s.state = .failed) ∧ execAck s = .next s.returnToIdle) ∨
      ((s.state = .idle ∨ s.state = .busy) ∧ execAck s = .next s) := by
  unfold execAck
  cases s.state <;> simp

/-- Everything a command can answer as a next state: the same state, the error entry or the start of an XFORM, the
return to IDLE of an ACK. -/
theorem exec_next {i : Instr} {s t : State} (h : exec i s = .next t) :
    t = s ∨
      (i = .xform ∧ s.state ≠ .busy ∧ validate s.desc ≠ .noError ∧ t = s.enterError (validate s.desc)) ∨
      (i = .xform ∧ s.state ≠ .busy ∧ s.written.allSet = true ∧ validate s.desc = .noError ∧
        precondition s.cfg s.desc = none ∧ t = s.startJob) ∨
      (i = .ack ∧ (s.state = .done ∨ s.state = .failed) ∧ t = s.returnToIdle) := by
  cases i with
  | nop => exact .inl (by injection h with h; exact h.symm)
  | xform =>
    rw [exec_xform] at h
    rcases execXform_cases s with ⟨_, e⟩ | ⟨_, _, e⟩ | ⟨hb, _, hv, e⟩ | ⟨r, _, _, _, _, e⟩ | ⟨hb, hw, hv, hp, e⟩ <;>
      rw [e] at h
    · exact .inl (by injection h with h; exact h.symm)
    · cases h
    · exact .inr (.inl ⟨rfl, hb, hv, by injection h with h; exact h.symm⟩)
    · cases h
    · exact .inr (.inr (.inl ⟨rfl, hb, hw, hv, hp, by injection h with h; exact h.symm⟩))
  | ack =>
    rw [exec_ack] at h
    rcases execAck_cases s with ⟨hd, e⟩ | ⟨_, e⟩ <;> rw [e] at h
    · exact .inr (.inr (.inr ⟨rfl, hd, by injection h with h; exact h.symm⟩))
    · exact .inl (by injection h with h; exact h.symm)

/-- No command faults. -/
theorem exec_ne_fault (i : Instr) (s : State) (f : Fault) : exec i s ≠ .fault f := by
  intro h
  cases i with
  | nop => cases h
  | xform =>
    rw [exec_xform] at h
    rcases execXform_cases s with ⟨_, e⟩ | ⟨_, _, e⟩ | ⟨_, _, _, e⟩ | ⟨r, _, _, _, _, e⟩ | ⟨_, _, _, _, e⟩ <;>
      rw [e] at h <;> cases h
  | ack =>
    rw [exec_ack] at h
    rcases execAck_cases s with ⟨_, e⟩ | ⟨_, e⟩ <;> rw [e] at h <;> cases h

/-! ### The host's write of CMD -/

/-- A CMD write that answers a next state is a command's reaction, or a reserved word's nothing. -/
theorem State.writeCmd_next {s t : State} {w : Word} (h : s.writeCmd w = .next t) :
    (∃ i, decode w = .ok i ∧ exec i s = .next t) ∨ ((∀ i, decode w ≠ .ok i) ∧ t = s) := by
  unfold State.writeCmd at h
  cases hd : decode w with
  | ok i => rw [hd] at h; exact .inl ⟨i, rfl, h⟩
  | error e =>
    rw [hd] at h
    cases e with
    | reserved v =>
      refine .inr ⟨?_, by injection h with h; exact h.symm⟩
      intro i hi
      cases hi

/-! ### Moves -/

/-- Everything a register write can answer as a next state. -/
theorem State.regWrite_next {s t : State} {off : Nat} {v : Word} (h : s.regWrite off v = .next t) :
    (Reg.ofOffset off = some .cmd ∧ s.writeCmd v = .next t) ∨
      (∃ r, Reg.ofOffset off = some (.desc r) ∧ t = s.writeDesc r v) ∨ t = s := by
  unfold State.regWrite at h
  cases ho : Reg.ofOffset off with
  | none => rw [ho] at h; cases h
  | some r =>
    rw [ho] at h
    cases r with
    | cmd => exact .inl ⟨rfl, h⟩
    | desc r => exact .inr (.inl ⟨r, rfl, by injection h with h; exact h.symm⟩)
    | status => exact .inr (.inr (by injection h with h; exact h.symm))
    | params => exact .inr (.inr (by injection h with h; exact h.symm))
    | scale d => exact .inr (.inr (by injection h with h; exact h.symm))

/-- A register read that answers a next state changes nothing but the data returned. -/
theorem State.regRead_next {s t : State} {off : Nat} (h : s.regRead off = .next t) :
    ∃ r, Reg.ofOffset off = some r ∧ t = s.returnToHost (s.readReg r) := by
  unfold State.regRead at h
  cases ho : Reg.ofOffset off with
  | none => rw [ho] at h; cases h
  | some r => rw [ho] at h; exact ⟨r, rfl, by injection h with h; exact h.symm⟩

/-- Everything a move can answer as a next state. -/
theorem State.runMove_next {s t : State} {m : Move} (h : s.runMove m = .next t) :
    (∃ off w i, m = .regWrite off w ∧ Reg.ofOffset off = some .cmd ∧ decode w = .ok i ∧ exec i s = .next t) ∨
      (∃ off v r, m = .regWrite off v ∧ Reg.ofOffset off = some (.desc r) ∧ t = s.writeDesc r v) ∨
      (∃ off v, m = .regWrite off v ∧ t = s) ∨
      (∃ v, ((∃ off, m = .regRead off) ∨ (∃ a, m = .pixRead a) ∨ (∃ o, m = .tblRead o)) ∧ t = s.returnToHost v) ∨
      (∃ a, m = .pixRead a ∧ s.mayReadPix a = false ∧ t = s.returnOpenByte a) ∨
      (∃ a v, m = .pixWrite a v ∧ a < 2 ^ s.cfg.addrBits ∧
        (s.mayWritePix a = true ∧ t = s.storePix a v ∨ s.mayWritePix a = false ∧ t = (s.storePix a v).disturb)) ∨
      (∃ o v, m = .tblWrite o v ∧ o < s.cfg.tblCapacity ∧
        (s.mayWriteTbl o = true ∧ t = s.storeTbl o v ∨ s.mayWriteTbl o = false ∧ t = (s.storeTbl o v).disturb)) ∨
      (m = .poll ∧ t = s.poll) ∨
      (∃ row, m = .sampler row ∧ t = s.samplerStep row) ∨
      (∃ torn, m = .reset torn ∧ t = s.resetEvent torn) := by
  cases m with
  | regWrite off v =>
    rcases State.regWrite_next h with ⟨ho, hc⟩ | ⟨r, ho, ht⟩ | ht
    · rcases State.writeCmd_next hc with ⟨i, hd, he⟩ | ⟨_, ht⟩
      · exact .inl ⟨off, v, i, rfl, ho, hd, he⟩
      · exact .inr (.inr (.inl ⟨off, v, rfl, ht⟩))
    · exact .inr (.inl ⟨off, v, r, rfl, ho, ht⟩)
    · exact .inr (.inr (.inl ⟨off, v, rfl, ht⟩))
  | regRead off =>
    obtain ⟨r, _, ht⟩ := State.regRead_next h
    exact .inr (.inr (.inr (.inl ⟨s.readReg r, .inl ⟨off, rfl⟩, ht⟩)))
  | regNarrow off n => cases h
  | pixWrite a v =>
    simp only [State.runMove, State.pixWrite] at h
    split at h
    · cases h
    · refine .inr (.inr (.inr (.inr (.inr (.inl ⟨a, v, rfl, by omega, ?_⟩)))))
      injection h with h
      cases hm : s.mayWritePix a <;> simp [hm] at h
      · exact .inr ⟨rfl, h.symm⟩
      · exact .inl ⟨rfl, h.symm⟩
  | pixRead a =>
    simp only [State.runMove, State.pixRead] at h
    split at h
    · cases h
    · injection h with h
      cases hm : s.mayReadPix a <;> simp [hm] at h
      · exact .inr (.inr (.inr (.inr (.inl ⟨a, rfl, hm, h.symm⟩))))
      · exact .inr (.inr (.inr (.inl ⟨_, .inr (.inl ⟨a, rfl⟩), h.symm⟩)))
  | tblWrite o v =>
    simp only [State.runMove, State.tblWrite] at h
    split at h
    · cases h
    · refine .inr (.inr (.inr (.inr (.inr (.inr (.inl ⟨o, v, rfl, by omega, ?_⟩))))))
      injection h with h
      cases hm : s.mayWriteTbl o <;> simp [hm] at h
      · exact .inr ⟨rfl, h.symm⟩
      · exact .inl ⟨rfl, h.symm⟩
  | tblRead o =>
    simp only [State.runMove, State.tblRead] at h
    split at h
    · cases h
    · exact .inr (.inr (.inr (.inl ⟨_, .inr (.inr ⟨o, rfl⟩), by injection h with h; exact h.symm⟩)))
  | poll =>
    exact .inr (.inr (.inr (.inr (.inr (.inr (.inr (.inl ⟨rfl, by injection h with h; exact h.symm⟩)))))))
  | sampler row =>
    exact .inr (.inr (.inr (.inr (.inr (.inr (.inr (.inr (.inl ⟨row, rfl, by injection h with h; exact h.symm⟩))))))))
  | reset torn =>
    exact .inr (.inr (.inr (.inr (.inr (.inr (.inr (.inr (.inr ⟨torn, rfl, by injection h with h; exact h.symm⟩))))))))

/-- A step with no move pending is the sampler's, by the reference schedule. -/
theorem step_noMoves (s : State) (h : s.moves = []) : step s = .next (s.samplerStep none) := by
  simp [step, State.advance, h]

/-- A step with a move pending makes that move. -/
theorem step_move (s : State) (m : Move) (rest : List Move) (h : s.moves = m :: rest) :
    step s = (s.withMoves rest).runMove m := by
  simp [step, State.advance, h]

end Sys2Proof.Machine
end

