-- ==== Sys2Proof/Laws/Datapath.lean ====
section
/-! SUPPORT. What the arithmetic operations compute. -/

namespace Sys2Proof.Machine

/-! ### The arithmetic shift -/

/-- The arithmetic shift is the floor of the quotient. -/
theorem sar_floor (x : Int) (n : Nat) : sar x n * 2 ^ n ≤ x ∧ x < (sar x n + 1) * 2 ^ n := by
  have hp : (0 : Int) < 2 ^ n := by positivity
  unfold sar
  constructor
  · exact Int.ediv_mul_le x hp.ne'
  · exact Int.lt_ediv_add_one_mul_self x hp

/-- The shift is the integer that the floor's bounds determine. -/
theorem sar_eq_of_bounds {x v : Int} {n : Nat} (h1 : v * 2 ^ n ≤ x) (h2 : x < (v + 1) * 2 ^ n) : sar x n = v := by
  have hp : (0 : Int) < 2 ^ n := by positivity
  unfold sar
  apply le_antisymm
  · exact Int.lt_add_one_iff.1 (Int.ediv_lt_of_lt_mul hp h2)
  · exact Int.le_ediv_of_mul_le hp h1

theorem le_sar_iff {x v : Int} {n : Nat} : v ≤ sar x n ↔ v * 2 ^ n ≤ x :=
  Int.le_ediv_iff_mul_le (by positivity)

theorem sar_lt_iff {x v : Int} {n : Nat} : sar x n < v ↔ x < v * 2 ^ n :=
  Int.ediv_lt_iff_lt_mul (by positivity)

/-- The shift is monotonic. -/
theorem sar_mono {x y : Int} (n : Nat) (h : x ≤ y) : sar x n ≤ sar y n :=
  Int.ediv_le_ediv (by positivity) h

/-- Two shifts in a row are one. -/
theorem sar_sar (x : Int) (m n : Nat) : sar (sar x m) n = sar x (m + n) := by
  unfold sar
  rw [pow_add, Int.ediv_ediv_of_nonneg (by positivity)]

/-- Adding a multiple of the unit that a shift discards commutes with it. -/
theorem sar_add_mul (x k : Int) (n : Nat) : sar (x + k * 2 ^ n) n = sar x n + k := by
  unfold sar
  exact Int.add_mul_ediv_right x k (by positivity)

/-! ### The scaler -/

theorem gridIndex_eq_div (c : Cfg) (f : Nat) : gridIndex c f = f / 2 ^ c.scaleBits := Nat.shiftRight_eq_div_pow _ _

/-- The mask takes the coordinate's low SCALE_BITS. -/
theorem fracWeight_eq_div (c : Cfg) (f : Nat) :
    fracWeight c f = f % 2 ^ c.scaleBits / 2 ^ (c.scaleBits - c.shiftBits) := by
  unfold fracWeight scaleMask
  rw [Nat.and_two_pow_sub_one_eq_mod, Nat.shiftRight_eq_div_pow]

/-- What a valid configuration satisfies (00_scope.md R7, R10). -/
theorem Cfg.wellFormed_iff (c : Cfg) : c.wellFormed = true ↔
    (1 ≤ c.precisionBits ∧ c.precisionBits ≤ 7) ∧ (1 ≤ c.shiftBits ∧ c.shiftBits ≤ 15) ∧
      c.shiftBits ≤ c.scaleBits ∧ c.scaleBits ≤ 26 ∧ 1 ≤ c.addrBits ∧ 1098500 ≤ c.tblCapacity := by
  simp only [Cfg.wellFormed, Cfg.k1, Cfg.k2, Cfg.k3, Cfg.k4, Cfg.addrBitsOk, Cfg.capacityOk, Bool.and_eq_true,
    decide_eq_true_eq]
  tauto

/-! ### The blends -/

/-- A weight and its complement, over the integers. -/
theorem compWeight_cast (c : Cfg) (f : Nat) (h : f ≤ 2 ^ c.shiftBits - 1) :
    (compWeight c f : Int) = 2 ^ c.shiftBits - 1 - f := by
  have hp : 1 ≤ 2 ^ c.shiftBits := Nat.one_le_two_pow
  have : compWeight c f + f + 1 = 2 ^ c.shiftBits := by unfold compWeight weightSum; omega
  have h' : ((compWeight c f + f + 1 : Nat) : Int) = 2 ^ c.shiftBits := by rw [this]; push_cast; rfl
  push_cast at h'
  omega

/-- The exact sum of a blend. -/
theorem blendSum_eq (c : Cfg) (a b : Int) (f : Nat) (h : f ≤ 2 ^ c.shiftBits - 1) :
    blendSum c a b f = a * (2 ^ c.shiftBits - 1 - f) + b * f := by
  unfold blendSum
  rw [compWeight_cast c f h]

/-- An element read as a signed integer is an INT16. -/
theorem tableElem_range (tbl : List (Nat × Elem)) (o : Nat) :
    -32768 ≤ tableElem tbl o ∧ tableElem tbl o ≤ 32767 := by
  unfold tableElem
  have h1 := BitVec.toInt_lt (x := Memory.read tbl o)
  have h2 := BitVec.le_toInt (Memory.read tbl o)
  norm_num at h1 h2
  omega

/-! ### The clip -/

/-- The clip is a value of 0..255. -/
theorem clip_range (v : Int) : 0 ≤ clip v ∧ clip v ≤ 255 := by
  unfold clip
  split
  · omega
  · split <;> omega

/-- The clip is monotonic. -/
theorem clip_mono {v w : Int} (h : v ≤ w) : clip v ≤ clip w := by
  unfold clip
  split_ifs <;> omega

/-- The output sample is the clipped value, not a truncated one. -/
theorem roundClip_toNat (c : Cfg) (acc : Int) : ((roundClip c acc).toNat : Int) = clip (roundShift c acc) := by
  have h := clip_range (roundShift c acc)
  unfold roundClip
  rw [BitVec.toNat_ofInt]
  generalize clip (roundShift c acc) = v at h
  norm_num
  omega

end Sys2Proof.Machine
end

