-- ==== Sys2Proof/Laws/Operands.lean ====
section
/-! SUPPORT. What the checks of an XFORM say. -/

namespace Sys2Proof.Machine

/-- The validation passes exactly when no check fires. -/
theorem validate_eq_noError (d : Descriptor) :
    validate d = .noError ↔ v1 d = false ∧ v2 d = false ∧ v3 d = false := by
  unfold validate
  cases v1 d <;> cases v2 d <;> cases v3 d <;> simp

/-- The error kinds that the validation can raise. -/
theorem validate_cases (d : Descriptor) :
    validate d = .noError ∨ validate d = .invalidArgument ∨ validate d = .modeMismatch := by
  cases validate d <;> simp

theorem v1_eq_false (d : Descriptor) : v1 d = false ↔ d.tc = 3 ∨ d.tc = 4 := by
  unfold v1
  simp only [Bool.and_eq_false_iff, bne_eq_false_iff_eq]

/-- A validated descriptor has 3 or 4 table channels. -/
theorem tc_of_validate {d : Descriptor} (h : validate d = .noError) : d.tc = 3 ∨ d.tc = 4 :=
  (v1_eq_false d).1 ((validate_eq_noError d).1 h).1

/-- No precondition fails exactly when all four hold. -/
theorem precondition_eq_none (c : Cfg) (d : Descriptor) :
    precondition c d = none ↔ p2 d = true ∧ p3 c d = true ∧ p4 c d = true ∧ p5 d = true := by
  unfold precondition
  cases p2 d <;> cases p3 c d <;> cases p4 c d <;> cases p5 d <;> simp

/-- P2 as the spec words it. -/
theorem p2_iff (d : Descriptor) : p2 d = true ↔ GridSizesLegal d := by
  unfold p2 GridSizesLegal
  simp only [Bool.and_eq_true, decide_eq_true_eq]
  constructor
  · rintro ⟨⟨h0, h1⟩, h2⟩ a
    cases a
    · exact h0
    · exact h1
    · exact h2
  · intro h
    exact ⟨⟨h .axis0, h .axis1⟩, h .axis2⟩

/-- P3 as the spec words it. -/
theorem p3_iff (c : Cfg) (d : Descriptor) : p3 c d = true ↔ tableLen d ≤ c.tblCapacity := by
  simp [p3]

/-- P4 as the spec words it. -/
theorem p4_iff (c : Cfg) (d : Descriptor) : p4 c d = true ↔ AddressesInside c d := by
  unfold p4 AddressesInside
  simp only [Bool.or_eq_true, Bool.and_eq_true, beq_iff_eq, decide_eq_true_eq]
  simp only [lastAddr, sampleAddr, Bank.touched]
  constructor
  · rintro ((h | h) | h) hw hh
    · omega
    · omega
    · exact h
  · intro h
    by_cases hw : d.W = 0
    · exact .inl (.inl hw)
    · by_cases hh : d.H = 0
      · exact .inl (.inr hh)
      · exact .inr (h (by omega) (by omega))

/-- The sample of a band is its pixel's first byte and the band. -/
theorem sampleAddr_band (L : Descriptor) (i : Image) (y x b : Nat) :
    sampleAddr L i y x b = sampleAddr L i y x 0 + b := rfl

/-- Every touched address of an image is at most the last one. -/
theorem sampleAddr_le_lastAddr (d : Descriptor) (i : Image) (y x b : Nat) (hy : y < d.H) (hx : x < d.W)
    (hb : b < d.touched i) : sampleAddr d i y x b ≤ lastAddr d i := by
  unfold lastAddr sampleAddr
  have h1 : y * d.rstride i ≤ (d.H - 1) * d.rstride i := Nat.mul_le_mul_right _ (by omega)
  have h2 : x * d.pstride i ≤ (d.W - 1) * d.pstride i := Nat.mul_le_mul_right _ (by omega)
  omega

/-- Every sample address of a job inside its contract is inside PIX (20_memory.md R60). -/
theorem sampleAddr_lt (c : Cfg) (d : Descriptor) (i : Image) (y x b : Nat) (h : AddressesInside c d)
    (hy : y < d.H) (hx : x < d.W) (hb : b < d.touched i) : sampleAddr d i y x b < 2 ^ c.addrBits := by
  have hle := sampleAddr_le_lastAddr d i y x b hy hx hb
  obtain ⟨h1, h2⟩ := h (by omega) (by omega)
  cases i with
  | input => exact lt_of_le_of_lt hle h1
  | output => exact lt_of_le_of_lt hle h2

/-- The pixel-by-pixel test is the no-hazard condition, for a job that writes something. -/
theorem noHazardAll_iff (d : Descriptor) (htc : 0 < d.tc) : noHazardAll d = true ↔ NoHazard d := by
  unfold noHazardAll NoHazard pixelsApart
  simp only [allBelow_iff, Bool.or_eq_true, Bool.and_eq_true, beq_iff_eq, apart_iff _ _ _ _ htc (Nat.succ_pos 2),
    apart_iff _ _ _ _ htc htc]
  constructor
  · intro h y x v u hy hx hv hu hne
    rcases h y hy x hx v hv u hu with he | ⟨h1, h2⟩
    · exact absurd (Prod.ext he.1 he.2) hne
    · exact ⟨fun c b hc hb => h1 c b hc hb, fun c b hc hb => h2 c b hc hb⟩
  · intro h y hy x hx v hv u hu
    by_cases he : y = v ∧ x = u
    · exact .inl he
    · have := h y x v u hy hx hv hu (fun hc => he (Prod.mk.inj hc))
      exact .inr ⟨fun c b hc hb => this.1 c b hc hb, fun c b hc hb => this.2 c b hc hb⟩

/-- The test for the bytes a job reads. -/
theorem jobReads_iff (L : Descriptor) (a : Nat) : jobReads L a = true ↔ IsRead L a := by
  unfold jobReads IsRead
  simp only [anyBelow_iff, Bool.and_eq_true, decide_eq_true_eq]
  constructor
  · rintro ⟨y, hy, x, hx, h1, h2⟩
    exact ⟨y, x, a - sampleAddr L .input y x 0, hy, hx, by omega, by rw [sampleAddr_band]; omega⟩
  · rintro ⟨y, x, b, hy, hx, hb, rfl⟩
    exact ⟨y, hy, x, hx, by rw [sampleAddr_band L .input y x b]; omega,
      by rw [sampleAddr_band L .input y x b]; omega⟩

/-- The test for the bytes a job writes. -/
theorem jobWrites_iff (L : Descriptor) (a : Nat) : jobWrites L a = true ↔ IsWritten L a := by
  unfold jobWrites IsWritten
  simp only [anyBelow_iff, Bool.and_eq_true, decide_eq_true_eq]
  constructor
  · rintro ⟨y, hy, x, hx, h1, h2⟩
    exact ⟨y, x, a - sampleAddr L .output y x 0, hy, hx, by omega, by rw [sampleAddr_band]; omega⟩
  · rintro ⟨y, x, b, hy, hx, hb, rfl⟩
    exact ⟨y, hy, x, hx, by rw [sampleAddr_band L .output y x b]; omega,
      by rw [sampleAddr_band L .output y x b]; omega⟩

/-! ### Runs -/

theorem runSteps_zero (s : State) : runSteps 0 s = .next s := rfl

/-- A run of any machine, one step at a time. -/
theorem run_succ (M : Host.Core) (n : Nat) (s : M.State) :
    M.run (n + 1) s =
      match M.step s with
      | .next t => M.run n t
      | .fault f => .fault f
      | .refused r => .refused r := rfl

theorem runSteps_succ (n : Nat) (s : State) :
    runSteps (n + 1) s =
      match step s with
      | .next t => runSteps n t
      | .fault f => .fault f
      | .refused r => .refused r := by
  refine (run_succ Sys2Proof.core n s).trans ?_
  have hs : Sys2Proof.core.step s = step s := rfl
  rw [hs]
  cases step s <;> rfl

/-- A run goes on after a step that answers a next state. -/
theorem runSteps_next {n : Nat} {s t : State} (h : step s = .next t) : runSteps (n + 1) s = runSteps n t := by
  rw [runSteps_succ, h]

/-- Two runs in a row are one. -/
theorem runSteps_add {m n : Nat} {s t : State} (h : runSteps m s = .next t) :
    runSteps (m + n) s = runSteps n t := by
  induction m generalizing s with
  | zero =>
    rw [runSteps_zero] at h
    injection h with h
    rw [Nat.zero_add, h]
  | succ m ih =>
    rw [Nat.add_right_comm, runSteps_succ]
    rw [runSteps_succ] at h
    cases hs : step s with
    | next u => rw [hs] at h; exact ih h
    | fault f => rw [hs] at h; cases h
    | refused r => rw [hs] at h; cases h

/-- An invariant that every step keeps holds along every run. -/
theorem runSteps_keeps {P : State → Prop} (hstep : ∀ s t, P s → step s = .next t → P t) {n : Nat} {s t : State}
    (hs : P s) (h : runSteps n s = .next t) : P t := by
  induction n generalizing s with
  | zero => rw [runSteps_zero] at h; injection h with h; exact h ▸ hs
  | succ n ih =>
    rw [runSteps_succ] at h
    cases hu : step s with
    | next u => rw [hu] at h; exact ih (hstep s u hs hu) h
    | fault f => rw [hu] at h; cases h
    | refused r => rw [hu] at h; cases h

end Sys2Proof.Machine
end

