-- ==== Sys2Proof/Laws/Steps.lean ====
section
/-! SUPPORT. What one step can be, what a register's read depends on, what the sampler, a poll and a start leave
alone. -/

namespace Sys2Proof.Machine

/-- A step that answers a next state is the sampler's by the reference schedule, or the first pending move. -/
theorem step_next {s t : State} (h : step s = .next t) :
    (s.moves = [] ∧ t = s.samplerStep none) ∨
      ∃ m rest, s.moves = m :: rest ∧ (s.withMoves rest).runMove m = .next t := by
  cases hm : s.moves with
  | nil =>
    rw [step_noMoves s hm] at h
    injection h with h
    exact .inl ⟨rfl, h.symm⟩
  | cons m rest =>
    rw [step_move s m rest hm] at h
    exact .inr ⟨m, rest, rfl, h⟩

/-! ### What a read of a register depends on -/

theorem State.readReg_desc_congr {s t : State} (hd : t.desc = s.desc) (hw : t.written = s.written)
    (hr : t.resets = s.resets) (q : DReg) : t.readReg (.desc q) = s.readReg (.desc q) := by
  simp [State.readReg, State.descValue, hd, hw, hr]

theorem State.readReg_scale_congr {s t : State} {a : Axis} (ha : t.scale a = s.scale a)
    (hw : t.scaleWritten = s.scaleWritten) (hr : t.resets = s.resets) :
    t.readReg (.scale a) = s.readReg (.scale a) := by
  simp [State.readReg, State.scaleValue, ha, hw, hr]

/-! ### The sampler -/

/-- A step of the sampler changes at most STATE, ERR, the job, PIX and the next draw. -/
theorem State.samplerStep_frame (s : State) (row : Option Nat) :
    s.samplerStep row =
      { s with
        state := (s.samplerStep row).state, err := (s.samplerStep row).err, job := (s.samplerStep row).job,
        pix := (s.samplerStep row).pix, draws := (s.samplerStep row).draws } := by
  rcases s.samplerStep_cases row with h | ⟨_, _, _, _, _, _, _, h⟩ | ⟨_, _, _, _, h⟩ <;> rw [h] <;> rfl

@[simp] theorem State.samplerStep_cfg (s : State) (row : Option Nat) : (s.samplerStep row).cfg = s.cfg := by
  rw [s.samplerStep_frame row]

@[simp] theorem State.samplerStep_desc (s : State) (row : Option Nat) : (s.samplerStep row).desc = s.desc := by
  rw [s.samplerStep_frame row]

@[simp] theorem State.samplerStep_written (s : State) (row : Option Nat) :
    (s.samplerStep row).written = s.written := by
  rw [s.samplerStep_frame row]

@[simp] theorem State.samplerStep_scaleWritten (s : State) (row : Option Nat) :
    (s.samplerStep row).scaleWritten = s.scaleWritten := by
  rw [s.samplerStep_frame row]

@[simp] theorem State.samplerStep_scale (s : State) (row : Option Nat) (a : Axis) :
    (s.samplerStep row).scale a = s.scale a := by
  rw [s.samplerStep_frame row]
  cases a <;> rfl

@[simp] theorem State.samplerStep_tbl (s : State) (row : Option Nat) : (s.samplerStep row).tbl = s.tbl := by
  rw [s.samplerStep_frame row]

@[simp] theorem State.samplerStep_moves (s : State) (row : Option Nat) : (s.samplerStep row).moves = s.moves := by
  rw [s.samplerStep_frame row]

@[simp] theorem State.samplerStep_readData (s : State) (row : Option Nat) :
    (s.samplerStep row).readData = s.readData := by
  rw [s.samplerStep_frame row]

@[simp] theorem State.samplerStep_resets (s : State) (row : Option Nat) : (s.samplerStep row).resets = s.resets := by
  rw [s.samplerStep_frame row]

/-- A step of the sampler leaves STATUS alone, or ends the job. -/
theorem State.samplerStep_status (s : State) (row : Option Nat) :
    ((s.samplerStep row).state = s.state ∧ (s.samplerStep row).err = s.err) ∨
      (s.state = .busy ∧ (s.samplerStep row).state = .done ∧ (s.samplerStep row).err = .noError) := by
  rcases s.samplerStep_cases row with h | ⟨_, _, _, _, _, _, _, h⟩ | ⟨_, hb, _, _, h⟩ <;> rw [h] <;> simp [*]

/-- The enabled pixel step of a named row. -/
theorem State.samplerStep_some {s : State} {j : Job} {y x : Nat} (hb : s.state = .busy) (hj : s.job = some j)
    (hc : j.cur[y]? = some x) (hx : x < j.latched.W) : s.samplerStep (some y) = s.pixelStep j y x := by
  have he := (j.enabledAt_eq_some y x).2 ⟨hc, hx⟩
  simp [State.samplerStep, hb, hj, he]

/-- The reference schedule at an unfinished job. -/
theorem State.samplerStep_next {s : State} {j : Job} {y x : Nat} (hb : s.state = .busy) (hj : s.job = some j)
    (hn : j.nextPixel = some (y, x)) : s.samplerStep none = s.pixelStep j y x := by
  simp [State.samplerStep, hb, hj, hn]

/-- The reference schedule at a finished job. -/
theorem State.samplerStep_finished {s : State} {j : Job} (hb : s.state = .busy) (hj : s.job = some j)
    (hn : ∀ x ∈ j.cur, j.latched.W ≤ x) : s.samplerStep none = s.completionStep := by
  simp [State.samplerStep, hb, hj, (j.nextPixel_eq_none).2 hn]

/-- A pixel's result depends on PIX through its three input reads only. -/
theorem pixelResult_congr (c : Cfg) (L : Descriptor) (tbl : List (Nat × Elem)) (pix pix' : List Host.Cell)
    (y x ch : Nat)
    (h : ∀ b, b < 3 → Memory.read pix (sampleAddr L .input y x b) = Memory.read pix' (sampleAddr L .input y x b)) :
    pixelResult c L pix tbl y x ch = pixelResult c L pix' tbl y x ch := by
  unfold pixelResult
  rw [h 0 (by omega), h 1 (by omega), h 2 (by omega)]

/-! ### A breach of the host's duties -/

/-- A breach changes at most PIX, the job and the next draw. -/
theorem State.disturb_frame (s : State) :
    s.disturb = { s with pix := s.disturb.pix, job := s.disturb.job, draws := s.disturb.draws } := by
  unfold State.disturb
  split <;> rfl

@[simp] theorem State.disturb_cfg (s : State) : s.disturb.cfg = s.cfg := by rw [s.disturb_frame]
@[simp] theorem State.disturb_state (s : State) : s.disturb.state = s.state := by rw [s.disturb_frame]
@[simp] theorem State.disturb_err (s : State) : s.disturb.err = s.err := by rw [s.disturb_frame]
@[simp] theorem State.disturb_desc (s : State) : s.disturb.desc = s.desc := by rw [s.disturb_frame]
@[simp] theorem State.disturb_written (s : State) : s.disturb.written = s.written := by rw [s.disturb_frame]
@[simp] theorem State.disturb_scaleWritten (s : State) : s.disturb.scaleWritten = s.scaleWritten := by
  rw [s.disturb_frame]
@[simp] theorem State.disturb_scale (s : State) (a : Axis) : s.disturb.scale a = s.scale a := by
  rw [s.disturb_frame]
  cases a <;> rfl
@[simp] theorem State.disturb_tbl (s : State) : s.disturb.tbl = s.tbl := by rw [s.disturb_frame]
@[simp] theorem State.disturb_moves (s : State) : s.disturb.moves = s.moves := by rw [s.disturb_frame]
@[simp] theorem State.disturb_readData (s : State) : s.disturb.readData = s.readData := by rw [s.disturb_frame]
@[simp] theorem State.disturb_resets (s : State) : s.disturb.resets = s.resets := by rw [s.disturb_frame]

/-- A breach towards a running job. -/
theorem State.disturb_busy {s : State} {j : Job} (hb : s.state = .busy) (hj : s.job = some j) :
    s.disturb =
      { s with
        pix := writeOutput j.latched (Config.openByte s.draws) s.pix, job := some { j with disturbed := true },
        draws := s.draws + 1 } := by
  simp [State.disturb, hb, hj]

/-- PIX after the write-back of a whole output. -/
theorem read_writeOutput (L : Descriptor) (out : Nat → Byte) (pix : List Host.Cell) (hwf : Memory.wf pix = true)
    (a : Nat) :
    (IsWritten L a → Memory.read (writeOutput L out pix) a = out a) ∧
      (¬ IsWritten L a → Memory.read (writeOutput L out pix) a = Memory.read pix a) := by
  have hiff : IsWritten L a ↔ ∃ p ∈ pixels L, ∃ ch < L.tc, a = sampleAddr L .output p.1 p.2 ch := by
    constructor
    · rintro ⟨y, x, ch, hy, hx, hc, e⟩
      exact ⟨(y, x), (mem_pixels L _).2 ⟨hy, hx⟩, ch, hc, e⟩
    · rintro ⟨⟨y, x⟩, hp, ch, hc, e⟩
      exact ⟨y, x, ch, ((mem_pixels L _).1 hp).1, ((mem_pixels L _).1 hp).2, hc, e⟩
  rw [hiff]
  exact read_writePixels L out (pixels L) pix hwf a

/-! ### The host's duties towards a running job -/

theorem State.mayWritePix_busy {s : State} {j : Job} (hb : s.state = .busy) (hj : s.job = some j) (a : Nat) :
    s.mayWritePix a = true ↔ ¬ (IsRead j.latched a ∨ IsWritten j.latched a) := by
  simp [State.mayWritePix, State.running, hb, hj, ← jobReads_iff, ← jobWrites_iff]

theorem State.mayReadPix_busy {s : State} {j : Job} (hb : s.state = .busy) (hj : s.job = some j) (a : Nat) :
    s.mayReadPix a = true ↔ ¬ IsWritten j.latched a := by
  simp [State.mayReadPix, State.running, hb, hj, ← jobWrites_iff]

theorem State.mayWriteTbl_busy {s : State} {j : Job} (hb : s.state = .busy) (hj : s.job = some j) (o : Nat) :
    s.mayWriteTbl o = true ↔ ¬ InTable j.latched o := by
  show s.mayWriteTbl o = true ↔ ¬ o < tableLen j.latched
  simp [State.mayWriteTbl, State.running, hb, hj]

/-- Outside BUSY the host has no duties, and no byte is open. -/
theorem State.may_notBusy {s : State} (hb : s.state ≠ .busy) (n : Nat) :
    s.mayWritePix n = true ∧ s.mayReadPix n = true ∧ s.mayWriteTbl n = true := by
  have : s.running = none := by
    unfold State.running
    split
    · exact absurd ‹_› hb
    · rfl
  simp [State.mayWritePix, State.mayReadPix, State.mayWriteTbl, this]

/-! ### The poll -/

/-- A poll changes at most the moves to come and the data returned. -/
theorem State.poll_frame (s : State) : s.poll = { s with moves := s.poll.moves, readData := s.poll.readData } := by
  unfold State.poll
  split <;> rfl

/-! ### The start of a job -/

/-- A scale constant of a legal grid fits its register. -/
theorem scaleConst_lt (c : Cfg) (size : Nat) (hc : c.wellFormed = true) (h : size ≤ 65) :
    scaleConst c size < 2 ^ 32 := by
  have hc := (Cfg.wellFormed_iff c).1 hc
  unfold scaleConst
  have h1 : 2 ^ c.scaleBits ≤ 2 ^ 26 := Nat.pow_le_pow_right (by norm_num) (by omega)
  have h2 : (size - 1) * 2 ^ c.scaleBits ≤ 64 * 2 ^ 26 := Nat.mul_le_mul (by omega) h1
  norm_num at h2 ⊢
  omega

/-- A started job's SCALE registers hold its constants. -/
theorem State.startJob_scale (s : State) (hc : s.cfg.wellFormed = true) (hg : GridSizesLegal s.desc) (a : Axis) :
    (s.startJob.scale a).toNat = scaleConst s.cfg (s.desc.size a) := by
  cases a
  all_goals
    simp only [State.scale, State.startJob_scale0, State.startJob_scale1, State.startJob_scale2]
    rw [BitVec.toNat_ofNat, Nat.mod_eq_of_lt]
    exact scaleConst_lt _ _ hc (hg _).2

/-! ### Pixels that do not overlap -/

/-- In an image whose pixels are `P` bytes apart and whose rows hold `W` of them, the bytes of two pixels do not
meet. -/
theorem pixels_apart (P S W y x v u : Nat) (hS : W * P ≤ S) (hx : x < W) (hu : u < W) (hne : (y, x) ≠ (v, u)) :
    y * S + x * P + P ≤ v * S + u * P ∨ v * S + u * P + P ≤ y * S + x * P := by
  have row : ∀ a b p q : Nat, a < b → p < W → a * S + p * P + P ≤ b * S + q * P := by
    intro a b p q h hp
    have h1 : (a + 1) * S ≤ b * S := Nat.mul_le_mul_right _ h
    have h2 : (p + 1) * P ≤ W * P := Nat.mul_le_mul_right _ hp
    rw [Nat.add_mul, Nat.one_mul] at h1 h2
    omega
  have column : ∀ a p q : Nat, p < q → a * S + p * P + P ≤ a * S + q * P := by
    intro a p q h
    have h1 : (p + 1) * P ≤ q * P := Nat.mul_le_mul_right _ h
    rw [Nat.add_mul, Nat.one_mul] at h1
    omega
  rcases Nat.lt_trichotomy y v with h | rfl | h
  · exact .inl (row y v x u h hx)
  · rcases Nat.lt_trichotomy x u with h | rfl | h
    · exact .inl (column y x u h)
    · exact absurd rfl hne
    · exact .inr (column y u x h)
  · exact .inr (row v y u x h hu)

end Sys2Proof.Machine
end

