-- ==== Sys2Proof/Laws/Invariant.lean ====
section
/-! SUPPORT. What the shared updates keep of the invariant, and what a pixel step adds to a job's progress. -/

namespace Sys2Proof.Machine

/-- Outside BUSY there is no job. -/
theorem State.Inv.noJob {s : State} (h : s.Inv) (hb : s.state ≠ .busy) : s.job = none := by
  cases hj : s.job with
  | none => rfl
  | some j => exact absurd (h.jobIffBusy.1 (by rw [hj]; rfl)) hb

/-- With a job STATE is BUSY. -/
theorem State.Inv.busy {s : State} {j : Job} (h : s.Inv) (hj : s.job = some j) : s.state = .busy :=
  h.jobIffBusy.1 (by rw [hj]; rfl)

/-- A running job's row is below HEIGHT, its cursor at most WIDTH. -/
theorem JobInv.row {s : State} {j : Job} {y n : Nat} (h : JobInv s j) (hc : j.cur[y]? = some n) :
    y < j.latched.H ∧ n ≤ j.latched.W := by
  obtain ⟨h1, h2⟩ := List.getElem?_eq_some_iff.1 hc
  exact ⟨by rw [← h.rows]; exact h1, h.cursors n (h2 ▸ List.getElem_mem h1)⟩

/-- Every sample address of a running job is inside PIX. -/
theorem JobInv.addr_lt {s : State} {j : Job} {y x b : Nat} (i : Image) (h : JobInv s j) (hy : y < j.latched.H)
    (hx : x < j.latched.W) (hb : b < j.latched.touched i) : sampleAddr j.latched i y x b < 2 ^ s.cfg.addrBits :=
  sampleAddr_lt _ _ i _ _ _ ((p4_iff _ _).1 ((precondition_eq_none _ _).1 h.preconditions).2.2.1) hy hx hb

/-- A running job's grid sizes are legal. -/
theorem JobInv.grid {s : State} {j : Job} (h : JobInv s j) : GridSizesLegal j.latched :=
  (p2_iff _).1 ((precondition_eq_none _ _).1 h.preconditions).1

/-- What a running job's invariant rests on. -/
theorem JobInv.congr {s t : State} {j : Job} (h : JobInv s j) (hc : t.cfg = s.cfg) (hd : t.desc = s.desc)
    (hw : t.written = s.written) (hs : t.scaleWritten = s.scaleWritten) (ha : ∀ a, t.scale a = s.scale a) :
    JobInv t j := by
  refine ⟨h.validated, hc ▸ h.preconditions, hd ▸ h.latchedIsDesc, hw ▸ h.allWritten, h.rows, h.cursors, ?_⟩
  rw [hs, hc]
  exact ⟨h.scales.1, fun a => by rw [ha]; exact h.scales.2 a⟩

/-- Which pixel a cursor list names after one cursor has advanced. -/
theorem get_set_cursor {cur : List Nat} {y x v n : Nat} (h : (cur.set y (x + 1))[v]? = some n) :
    (v = y ∧ n = x + 1) ∨ (v ≠ y ∧ cur[v]? = some n) := by
  rw [List.getElem?_set] at h
  by_cases e : y = v
  · rw [if_pos e] at h
    split at h
    · injection h with h
      exact .inl ⟨e.symm, h.symm⟩
    · cases h
  · rw [if_neg e] at h
    exact .inr ⟨Ne.symm e, h⟩

/-- The cursors' sum grows by one with a pixel step. -/
theorem sum_set_cursor (cur : List Nat) (y x : Nat) (h : cur[y]? = some x) :
    (cur.set y (x + 1)).sum = cur.sum + 1 := by
  induction cur generalizing y with
  | nil => cases h
  | cons a cur ih =>
    cases y with
    | zero =>
      simp only [List.getElem?_cons_zero, Option.some.injEq] at h
      subst h
      simp only [List.set_cons_zero, List.sum_cons]
      omega
    | succ y =>
      rw [List.getElem?_cons_succ] at h
      simp only [List.set_cons_succ, List.sum_cons, ih y h]
      omega

/-- Torn write-backs inside PIX keep PIX inside its space. -/
theorem below_tornWrites (j : Job) (out : Nat → Nat → Nat → Byte) (torn : List (Nat × List Nat))
    (pix : List Host.Cell) (n : Nat) (h : Memory.below n pix = true)
    (ha : ∀ y x ch, j.cur[y]? = some x → x < j.latched.W → ch < j.latched.tc →
      sampleAddr j.latched .output y x ch < n) :
    Memory.below n (tornWrites j out torn pix) = true := by
  unfold tornWrites
  induction torn generalizing pix with
  | nil => exact h
  | cons p torn ih =>
    rw [List.foldl_cons]
    apply ih
    split
    · next x he =>
      obtain ⟨h1, h2⟩ := (j.enabledAt_eq_some _ _).1 he
      refine below_writeBands _ _ _ _ _ _ _ h fun ch hc => ha _ _ _ h1 h2 ?_
      simpa using (List.mem_filter.1 hc).2
    · exact h

/-- A store inside PIX keeps the invariant. -/
theorem State.Inv.storePix {s : State} (h : s.Inv) {a : Nat} (v : Byte) (ha : a < 2 ^ s.cfg.addrBits) :
    (s.storePix a v).Inv :=
  { h with
    pixCanonical := Memory.wf_write _ _ _ h.pixCanonical
    pixInside := Memory.below_write _ _ _ _ h.pixInside ha
    jobOk := fun j hj => (h.jobOk j hj).congr rfl rfl rfl rfl (by simp) }

/-- A store inside TBL keeps the invariant. -/
theorem State.Inv.storeTbl {s : State} (h : s.Inv) {o : Nat} (v : Elem) (ho : o < s.cfg.tblCapacity) :
    (s.storeTbl o v).Inv :=
  { h with
    tblCanonical := Memory.wf_write _ _ _ h.tblCanonical
    tblInside := Memory.below_write _ _ _ _ h.tblInside ho
    jobOk := fun j hj => (h.jobOk j hj).congr rfl rfl rfl rfl (by simp) }

/-- A load of an output byte keeps the invariant. -/
theorem State.Inv.returnOpenByte {s : State} (h : s.Inv) (a : Nat) : (s.returnOpenByte a).Inv :=
  { h with jobOk := fun j hj => (h.jobOk j hj).congr rfl rfl rfl rfl (by simp) }

/-- A breach of the host's duties keeps the invariant. -/
theorem State.Inv.disturb {s : State} (h : s.Inv) : s.disturb.Inv := by
  unfold State.disturb
  split
  · next j hb hj =>
    have J := h.jobOk j hj
    refine { h with
      pixCanonical := wf_writeOutput _ _ _ h.pixCanonical
      pixInside := below_writeOutput _ _ _ _ h.pixInside fun y x ch hy hx hc => J.addr_lt .output hy hx hc
      jobIffBusy := by simp [hb]
      jobOk := ?_ }
    intro k hk
    injection hk with hk
    subst hk
    exact { J with }
  · exact h

/-- A pixel step keeps what an undisturbed job has done and adds its pixel, where the images meet the no-hazard
condition. -/
theorem JobProgress.pixelStep {before : List Host.Cell} {s : State} {j : Job} {y x : Nat} (hwf : Memory.wf s.pix = true)
    (J : JobInv s j) (NH : NoHazard j.latched) (hP : JobProgress before s j) (hc : j.cur[y]? = some x)
    (hx : x < j.latched.W) (hfree : j.disturbed = false) :
    JobProgress before (s.pixelStep j y x) { j with cur := j.cur.set y (x + 1) } := by
  have hy := (J.row hc).1
  refine ⟨?_, ?_⟩
  · intro v u n ch hn hu hch
    show Memory.read (writeBands _ _ _ _ _ _) (sampleAddr j.latched .output v u ch) =
      pixelResult s.cfg j.latched before s.tbl v u ch
    by_cases e : (v, u) = (y, x)
    · cases e
      rw [read_writeBands_band _ _ _ _ _ _ hwf ch (List.mem_range.2 hch), s.pixelByte_undisturbed j hfree]
      exact pixelResult_congr _ _ _ _ _ _ _ _ fun b hb => hP.2 y x x b hc le_rfl hx hb
    · obtain ⟨m, hm, hum⟩ : ∃ m, j.cur[v]? = some m ∧ u < m := by
        rcases get_set_cursor hn with ⟨rfl, rfl⟩ | ⟨_, h⟩
        · have : u ≠ x := fun h => e (by rw [h])
          exact ⟨x, hc, by omega⟩
        · exact ⟨n, h, hu⟩
      obtain ⟨hv, hmW⟩ := J.row hm
      rw [read_writeBands_other]
      · exact hP.1 v u m ch hm hum hch
      · intro d hd he
        exact (NH y x v u hy hx hv (by omega) (Ne.symm e)).2 d ch (List.mem_range.1 hd) hch he.symm
  · intro v u n b hn hu huW hb
    show Memory.read (writeBands _ _ _ _ _ _) (sampleAddr j.latched .input v u b) = _
    obtain ⟨m, hm, hum, e⟩ : ∃ m, j.cur[v]? = some m ∧ m ≤ u ∧ (y, x) ≠ (v, u) := by
      rcases get_set_cursor hn with ⟨rfl, rfl⟩ | ⟨h', h⟩
      · refine ⟨x, hc, by omega, fun h => ?_⟩
        have := (Prod.mk.inj h).2
        omega
      · exact ⟨n, h, hu, fun h => h' (Prod.mk.inj h).1.symm⟩
    rw [read_writeBands_other]
    · exact hP.2 v u m b hm hum huW hb
    · intro d hd he
      exact (NH y x v u hy hx (J.row hm).1 huW e).1 d b (List.mem_range.1 hd) hb he.symm

end Sys2Proof.Machine
end

