-- ==== Sys2Proof/Laws/PerInstr.lean ====
section
/-! SUPPORT. What is said of every command, one lemma for each. -/

namespace Sys2Proof.Laws.CommandWord

/-- A command is well formed, its word is one of the three of 30_encoding.md R82, and the word decodes to it. -/
def Statement (i : Instr) : Prop :=
  i.wellFormed = true ∧ (encode i).toNat < 3 ∧ decode (encode i) = .ok i

theorem nop : Statement .nop := ⟨rfl, by decide, rfl⟩
theorem xform : Statement .xform := ⟨rfl, by decide, rfl⟩
theorem ack : Statement .ack := ⟨rfl, by decide, rfl⟩

end Sys2Proof.Laws.CommandWord
end

