-- ==== Sys2Proof/Tests/Slice0.lean ====
section
/-! SUPPORT. Tests with expected results from the spec (95_test_vectors.md unless a comment says otherwise), and for
each obligation with hypotheses a witness that meets them together. -/

namespace Sys2Proof.Tests

open Sys2Proof Sys2Proof.Machine

/-! ### Ill-formed configurations: each condition of 00_scope.md R7 and R10 refuses one -/

theorem test_standard_wellFormed : Cfg.standard.wellFormed = true := by decide
theorem test_k1_refuses : Cfg.build 8 18 15 32 1098500 = none ∧ Cfg.build 0 18 15 32 1098500 = none := by decide
theorem test_k2_refuses : Cfg.build 6 18 16 32 1098500 = none ∧ Cfg.build 6 18 0 32 1098500 = none := by decide
theorem test_k3_refuses : Cfg.build 6 14 15 32 1098500 = none := by decide
theorem test_k4_refuses : Cfg.build 6 27 15 32 1098500 = none := by decide
theorem test_addrBits_refuses : Cfg.build 6 18 15 0 1098500 = none := by decide
theorem test_capacity_refuses : Cfg.build 6 18 15 32 1098499 = none := by decide
theorem test_build_accepts : (Cfg.build 4 16 12 1 1098500).isSome = true := by decide
/-- No command is ill formed (30_encoding.md R83: a command word has no operand). -/
theorem test_commands_wellFormed :
    Instr.nop.wellFormed = true ∧ Instr.xform.wellFormed = true ∧ Instr.ack.wellFormed = true := by decide

/-! ### Command words, from 30_encoding.md R82 -/

theorem test_decode_nop : decode 0b00000000000000000000000000000000#32 = .ok .nop := rfl
theorem test_decode_xform : decode 0b00000000000000000000000000000001#32 = .ok .xform := rfl
theorem test_decode_ack : decode 0b00000000000000000000000000000010#32 = .ok .ack := rfl
theorem test_decode_reserved :
    decode 3#32 = .error (.reserved 3#32) ∧ decode 0xFFFFFFFF#32 = .error (.reserved 0xFFFFFFFF#32) ∧
      decode 0x00010001#32 = .error (.reserved 0x00010001#32) := ⟨rfl, rfl, rfl⟩
theorem test_tableWord :
    decodeTableWord 32 1 = some .xform ∧ decodeTableWord 32 2 = some .ack ∧ decodeTableWord 32 3 = none :=
  ⟨rfl, rfl, rfl⟩

/-! ### Register words -/

theorem test_status_words :
    statusWord .idle .noError = 0x0#32 ∧ statusWord .busy .noError = 0x1#32 ∧ statusWord .done .noError = 0x2#32 ∧
      statusWord .failed .invalidArgument = 0x7#32 ∧ statusWord .failed .modeMismatch = 0xB#32 := by decide

/-- The other valid configuration of section 2.7. -/
def other : Cfg := { precisionBits := 4, scaleBits := 16, shiftBits := 12, addrBits := 32, tblCapacity := 1098500 }

theorem test_params_words :
    paramsWord Cfg.standard = 0x000F1206#32 ∧ paramsWord other = 0x000C1004#32 := by decide

/-! ### The scaler (sections 2.1, 2.2, 2.7) -/

theorem test_scale_constants :
    scaleConst Cfg.standard 2 = 1028 ∧ scaleConst Cfg.standard 64 = 64764 ∧ scaleConst Cfg.standard 65 = 65793 ∧
      scaleConst other 17 = 4112 ∧ scaleConst other 65 = 16448 := by decide
theorem test_scaler_rows :
    scaleAxis Cfg.standard 2 128#8 = ⟨0, 16448⟩ ∧ scaleAxis Cfg.standard 3 128#8 = ⟨1, 128⟩ ∧
      scaleAxis Cfg.standard 17 255#8 = ⟨15, 32760⟩ ∧ scaleAxis Cfg.standard 65 255#8 = ⟨63, 32767⟩ ∧
      scaleAxis other 64 255#8 = ⟨62, 4092⟩ ∧ scaleAxis other 33 8#8 = ⟨1, 16⟩ := by decide
theorem test_weights : compWeight Cfg.standard 16448 = 16319 ∧ compWeight Cfg.standard 0 = 32767 := by decide

/-! ### Descriptors and states for the tests -/

/-- Table and images of program P1. -/
def single : Descriptor :=
  { tableChannels := 3, size1D := 2, size2D := 2, size3D := 2, width := 1, height := 1, inType := 0, inBands := 3,
    inPstride := 3, inRstride := 3, inBase := 0x1000, outType := 0, outBands := 3, outPstride := 3, outRstride := 3,
    outBase := 0x2000 }

/-- Two rows of two pixels, in place (20_memory.md R62). -/
def square : Descriptor :=
  { single with width := 2, height := 2, inRstride := 6, outRstride := 6, outBase := 0x1000 }

/-- The table of program P3. -/
def four : Descriptor := { single with tableChannels := 4, outBands := 4, outPstride := 4, outRstride := 4 }

/-- After reset and the writes of all sixteen descriptor registers. -/
def ready (d : Descriptor) (ms : List Move) : State :=
  { State.reset with desc := d, written := Bank.uniform true, moves := ms }

/-- A job of 2 by 2 by 2 nodes that has come as far as its cursors say. -/
def running (d : Descriptor) (cur : List Nat) (ms : List Move) : State :=
  { ready d ms with
    state := .busy, scale0 := 1028, scale1 := 1028, scale2 := 1028, scaleWritten := true,
    job := some { latched := d, cur := cur, disturbed := false } }

theorem ready_inv (d : Descriptor) (ms : List Move) : (ready d ms).Inv := by
  refine ⟨?_, ?_, ?_, ?_, ?_, ?_, ?_, ?_⟩
  iterate 5 rfl
  · exact ⟨fun h => absurd rfl h, nofun⟩
  · exact ⟨nofun, nofun⟩
  · exact nofun

theorem running_inv (d : Descriptor) (cur : List Nat) (ms : List Move) (hv : validate d = .noError)
    (hp : precondition Cfg.standard d = none) (hd : ∀ a, d.size a = 2) (hl : cur.length = d.H)
    (h : ∀ x ∈ cur, x ≤ d.W) : (running d cur ms).Inv := by
  refine ⟨?_, ?_, ?_, ?_, ?_, ?_, ?_, ?_⟩
  iterate 5 rfl
  · exact ⟨fun h => absurd rfl h, nofun⟩
  · exact ⟨fun _ => rfl, fun _ => rfl⟩
  · intro j hj
    injection hj with hj
    subst hj
    refine ⟨hv, hp, rfl, rfl, hl, h, rfl, ?_⟩
    have h1 : (1028#32).toNat = scaleConst Cfg.standard 2 := by decide
    intro a
    show _ = scaleConst Cfg.standard (d.size a)
    rw [hd a]
    cases a <;> exact h1

theorem square_inv (cur : List Nat) (ms : List Move) (hl : cur.length = 2) (h : ∀ x ∈ cur, x ≤ 2) :
    (running square cur ms).Inv :=
  running_inv square cur ms rfl rfl (fun a => by cases a <;> rfl) hl h

theorem single_inv (ms : List Move) : (running single [0] ms).Inv :=
  running_inv single [0] ms rfl rfl (fun a => by cases a <;> rfl) rfl (by decide)

/-- A next state with the given property. -/
def nextWith (o : Host.Outcome State Fault Refusal) (p : State → Bool) : Bool :=
  match o with
  | .next s => p s
  | .fault _ => false
  | .refused _ => false

/-- A refusal under the given name. -/
def refusedWith (o : Host.Outcome State Fault Refusal) (e : Refusal) : Bool :=
  match o with
  | .next _ => false
  | .fault _ => false
  | .refused r => r == e

/-! ### The interpolator and the rounding clipper (sections 2.3, 2.4, 2.7) -/

theorem test_lerp_rows :
    lerp Cfg.standard 0 16320 16448 = 8191 ∧ lerp Cfg.standard 16320 0 16448 = 8127 ∧
      lerp Cfg.standard (-1) (-1) 0 = -1 ∧ lerp Cfg.standard 32767 (-32768) 16384 = -2 ∧
      lerp Cfg.standard 100 200 32766 = 199 ∧ lerp other 4080 0 2056 = 2031 := by decide
theorem test_roundClip_rows :
    roundClip Cfg.standard 1048544 = 0#8 ∧ roundClip Cfg.standard 1081311 = 1#8 ∧
      roundClip Cfg.standard (-98301000) = 0#8 ∧ roundClip Cfg.standard 535838751 = 255#8 ∧
      roundClip other 14890500 = 227#8 := by decide
theorem test_corner_offsets :
    baseOffset { single with size1D := 3, size3D := 3 } 1 0 1 = 21 ∧
      cornerOffset { single with size1D := 3, size3D := 3 } 21 1 1 1 = 51 ∧
      cornerOffset { four with size1D := 65, size2D := 65, size3D := 65 } 1081332 1 1 1 = 1098496 := by decide

/-- Table I of section 2.5. -/
def tableI : List (Nat × Elem) :=
  [3, 7, 9, 10, 14, 15, 17, 19, 20, 21, 22, 23].map fun o => (o, 16320#16)

/-- Table B of section 2.5, in canonical form. -/
def tableB : List (Nat × Elem) :=
  [(1, -2000#16), (2, 12000#16), (3, -32768#16), (4, 16320#16), (5, -2000#16), (6, 12000#16), (7, 32767#16),
   (9, 2000#16), (10, 12000#16), (11, 100#16)] ++
  [(12, 16320#16), (13, 2000#16), (14, 12000#16), (15, 16320#16), (17, -2000#16), (18, 32000#16), (19, 8160#16),
   (20, 16320#16), (21, -2000#16), (22, 32000#16), (23, -1#16)] ++
  [(25, 2000#16), (26, 32000#16), (27, 64#16), (28, 16320#16), (29, 2000#16), (30, 32000#16), (31, 32#16)]

/-- Vector W1, channel 1. -/
theorem test_w1 : pixelBlends Cfg.standard single tableI 128#8 128#8 128#8 1 =
    ⟨0, 16319, 0, 16319, 8191, 8191, 268394497⟩ := by decide
/-- Vector W8, channel 3: negative elements. -/
theorem test_w8 : pixelBlends Cfg.standard four tableB 128#8 128#8 128#8 3 =
    ⟨128, 8241, 4063, 47, 4200, 2047, 102208856⟩ := by decide
/-- Vector W10, channel 2: saturation. -/
theorem test_w10 : pixelOut Cfg.standard four tableB 255#8 255#8 255#8 2 = 255#8 := by decide

/-! ### Commands and moves (section 2.8, programs P4 and P6) -/

theorem test_nop : exec .nop (running square [0, 0] []) = .next (running square [0, 0] []) := rfl
/-- The row `2, 0, 1, 2, 1` of section 2.8: V1 wins over V2. -/
theorem test_xform_v1 :
    nextWith (exec .xform (ready { single with tableChannels := 2, outType := 1, inBands := 2, outBands := 1 } []))
      (fun t => t.state == .failed && t.err == .invalidArgument) = true := by decide
/-- The row with SIZE1D = 66 of section 2.8. -/
theorem test_xform_p2 :
    refusedWith (exec .xform (ready { single with size1D := 66 } [])) .gridSizeOutOfRange = true := by decide
theorem test_ack_done :
    nextWith (exec .ack { ready single [] with state := .done })
      (fun t => t.state == .idle && t.err == .noError) = true := by decide
theorem test_ack_busy : exec .ack (running square [0, 0] []) = .next (running square [0, 0] []) := rfl
/-- Rows of R103 (40_transform_command.md): valid, V3, V2. -/
theorem test_validation_rows :
    validate { single with inBands := 4, outBands := 4 } = .noError ∧
      validate { single with outBands := 4 } = .modeMismatch ∧
      validate { four with inBands := 4, outBands := 3 } = .modeMismatch ∧
      validate { single with tableChannels := 0x103 } = .invalidArgument := by decide
/-- The pixel step of program P1: its end state's bytes, and the cursor. -/
theorem test_pixel_step :
    nextWith (step { running single [0] [] with
        pix := [(0x1000, 0x80#8), (0x1001, 0x80#8), (0x1002, 0x80#8), (0x2000, 0xAA#8), (0x2003, 0xAA#8)]
        tbl := tableI })
      (fun t => t.pix == [(0x1000, 0x80#8), (0x1001, 0x80#8), (0x1002, 0x80#8), (0x2000, 0x80#8), (0x2001, 0x80#8),
        (0x2002, 0x80#8), (0x2003, 0xAA#8)] &&
        t.job == some { latched := single, cur := [1], disturbed := false }) = true := by decide
/-- Program P6: a WIDTH write while BUSY is ignored. -/
theorem test_busy_write :
    nextWith (step (running single [0] [.regWrite 0x1C 5#32])) (fun t => t.desc == single) = true := by decide

/-- A read of a register that nothing has written since reset completes (R29), and the register still counts as
unwritten. -/
theorem test_unwritten_read :
    nextWith (step (State.reset.withMoves [.regRead 0x18]))
      (fun t => t.moves == [] && !t.written.get .size3D && t.state == .idle) = true := by decide

/-- 70_reset_and_hazards.md R214: nothing detects a store to a running job's input byte; the job goes on, its output
open. The byte of 0x1001 is stored. -/
theorem test_breach_is_not_detected :
    nextWith (step (running single [0] [.pixWrite 0x1001 7#8]))
      (fun t => t.state == .busy && t.err == .noError &&
        t.job == some { latched := single, cur := [0], disturbed := true }) = true := by decide
/-- A load of an output byte before DONE completes (R214, R216). -/
theorem test_early_load :
    nextWith (step (running single [0] [.pixRead 0x2001])) (fun t => t.state == .busy && t.moves == [] && t.pix == []) =
      true := by decide

/-! ### Witnesses: for each obligation with hypotheses, values that meet them together -/

/-- Outside BUSY, one move pending. -/
def host (m : Move) : State := ready square [m]

/-- While BUSY, row 0 at its second pixel, row 1 at its first; one move pending. -/
def busyHost (m : Move) : State := running square [1, 0] [m]

theorem witness_CommandWordsDecode : (3#32 ≠ 0#32 ∧ 3#32 ≠ 1#32 ∧ 3#32 ≠ 2#32) ∧
    (0xFFFFFFFF#32 ≠ 0#32 ∧ 0xFFFFFFFF#32 ≠ 1#32 ∧ 0xFFFFFFFF#32 ≠ 2#32) := by decide

theorem witness_DecodeAndEncodeAgree : Instr.xform.wellFormed = true ∧ decode 2#32 = .ok .ack := ⟨rfl, rfl⟩

theorem witness_ReservedWordActsAsNop :
    (3#32 ≠ 0#32 ∧ 3#32 ≠ 1#32 ∧ 3#32 ≠ 2#32) ∧ (busyHost (.regWrite 0x00 3#32)).moves = .regWrite 0x00 3#32 :: [] :=
  ⟨by decide, rfl⟩

theorem witness_CommandWriteRunsTheCommand :
    (decode 1#32 = .ok .xform ∧ (host (.regWrite 0x00 1#32)).moves = .regWrite 0x00 1#32 :: []) ∧
      (host (.regRead 0x00)).moves = .regRead 0x00 :: [] := ⟨⟨rfl, rfl⟩, rfl⟩

/-- Offsets outside (R85): the first unaligned one, the first above 0x54, aligned; one register of each access. -/
theorem witness_RegisterMap :
    (1 % 4 ≠ 0 ∨ 0x54 < 1) ∧ (0x58 % 4 ≠ 0 ∨ 0x54 < 0x58) ∧
      (Reg.ofOffset 0x00 = some .cmd ∧ (host (.regRead 0x00)).moves = .regRead 0x00 :: []) ∧
      (Reg.ofOffset 0x04 = some .status ∧ (host (.regWrite 0x04 5#32)).moves = .regWrite 0x04 5#32 :: []) ∧
      (Reg.ofOffset 0x54 = some (.scale .axis2) ∧ (host (.regWrite 0x54 5#32)).moves = .regWrite 0x54 5#32 :: []) ∧
      (Reg.ofOffset 0x57 = none ∧ (host (.regRead 0x57)).moves = .regRead 0x57 :: []) ∧
      (host (.regNarrow 0x00 3)).moves = .regNarrow 0x00 3 :: [] ∧
      ((host (.regRead 0x48)).written.get .outBase = true ∧ (host (.regRead 0x48)).moves = .regRead 0x48 :: []) ∧
      (Reg.ofOffset 0x48 = some (.desc .outBase) ∧ (host (.regWrite 0x48 5#32)).state ≠ .busy ∧
        (host (.regWrite 0x48 5#32)).moves = .regWrite 0x48 5#32 :: []) := by
  refine ⟨by decide, by decide, ⟨rfl, rfl⟩, ⟨rfl, rfl⟩, ⟨rfl, rfl⟩, ⟨rfl, rfl⟩, rfl, ⟨rfl, rfl⟩, rfl, nofun, rfl⟩

theorem witness_OutsideAccessesRefused :
    ((0x55 % 4 ≠ 0 ∨ 0x54 < 0x55) ∧ (host (.regWrite 0x55 5#32)).moves = .regWrite 0x55 5#32 :: [] ∧
        (host (.regRead 0x55)).moves = .regRead 0x55 :: []) ∧
      (host (.regNarrow 0x04 1)).moves = .regNarrow 0x04 1 :: [] ∧
      (0x4C ∈ [0x04, 0x08, 0x4C, 0x50, 0x54] ∧ (host (.regWrite 0x4C 5#32)).moves = .regWrite 0x4C 5#32 :: []) ∧
      (host (.regRead 0x00)).moves = .regRead 0x00 :: [] ∧ (host (.regRead 0x04)).moves = .regRead 0x04 :: [] ∧
      ((host (.regRead 0x08)).cfg.wellFormed = true ∧ (host (.regRead 0x08)).moves = .regRead 0x08 :: []) ∧
      (0x0C = Reg.offset (.desc .tableChannels) ∧ (host (.regWrite 0x0C 5#32)).state ≠ .busy ∧
        (host (.regWrite 0x0C 5#32)).moves = .regWrite 0x0C 5#32 :: []) := by
  refine ⟨⟨by decide, rfl, rfl⟩, rfl, ⟨by decide, rfl⟩, rfl, rfl, ⟨rfl, rfl⟩, rfl, nofun, rfl⟩

theorem witness_StatusRegisterFields :
    (busyHost (.regRead 0x04)).moves = .regRead 0x04 :: [] ∧ (busyHost (.regRead 0x04)).Inv :=
  ⟨rfl, square_inv _ _ rfl (by decide)⟩

theorem witness_ParamsRegisterFields :
    (host (.regRead 0x08)).cfg.wellFormed = true ∧ (host (.regRead 0x08)).cfg = Cfg.standard ∧
      (host (.regRead 0x08)).moves = .regRead 0x08 :: [] ∧ step (ready square []) = .next (ready square []) :=
  ⟨rfl, rfl, rfl, rfl⟩

theorem witness_DescriptorWriteReadsBack :
    (ready square [.regWrite 0x0C 7#32, .regRead 0x0C]).state ≠ .busy ∧
      (ready square [.regWrite 0x0C 7#32, .regRead 0x0C]).moves =
        .regWrite (Reg.offset (.desc .tableChannels)) 7#32 :: .regRead (Reg.offset (.desc .tableChannels)) :: [] :=
  ⟨nofun, rfl⟩

theorem witness_WritesWhileBusyAreDropped :
    ((busyHost (.regWrite 0x1C 5#32)).state = .busy ∧
        (busyHost (.regWrite 0x1C 5#32)).moves = .regWrite (Reg.offset (.desc .width)) 5#32 :: []) ∧
      ((host (.regWrite 0x1C 5#32)).state ≠ .busy ∧
        (host (.regWrite 0x1C 5#32)).moves = .regWrite (Reg.offset (.desc .width)) 5#32 :: []) ∧
      ((busyHost (.regRead 0x1C)).written.get .width = true ∧
        (busyHost (.regRead 0x1C)).moves = .regRead (Reg.offset (.desc .width)) :: []) ∧
      ((busyHost (.regRead 0x54)).scaleWritten = true ∧
        (busyHost (.regRead 0x54)).moves = .regRead (Reg.offset (.scale .axis2)) :: []) ∧
      (busyHost (.regRead 0x08)).moves = .regRead (Reg.offset .params) :: [] ∧
      (State.reset.withMoves [.regRead 0x54]).moves = .regRead (Reg.offset (.scale .axis2)) :: [] := by
  refine ⟨⟨rfl, rfl⟩, ⟨nofun, rfl⟩, ⟨rfl, rfl⟩, ⟨rfl, rfl⟩, rfl, rfl⟩

/-- A descriptor write, an error entry, a start and a completion are steps that change registers. -/
theorem witness_RegistersChangeOnlyBy :
    nextWith (step (host (.regWrite 0x1C 5#32))) (fun t => t.desc != square) = true ∧
      nextWith (step { ready single [.regWrite 0x00 1#32] with desc := { single with tableChannels := 2 } })
        (fun t => t.state != .idle && t.err != .noError) = true ∧
      nextWith (step (host (.regWrite 0x00 1#32))) (fun t => t.scale .axis0 != 0#32) = true ∧
      nextWith (step (running square [2, 2] [])) (fun t => t.state == .done) = true ∧
      nextWith (step (host (.regRead 0x1C))) (fun t => t.moves == []) = true := by decide

theorem witness_ScaleRegistersDescribeTheirJob :
    (host (.regWrite 0x00 1#32)).cfg.wellFormed = true ∧
      nextWith (step (host (.regWrite 0x00 1#32)))
        (fun t => t.scaleWritten != false && t.scale .axis1 != 0#32) = true ∧
      (nextWith (step (busyHost (.regRead 0x50))) (fun _ => true) = true ∧ (busyHost (.regRead 0x50)).scaleWritten = true ∧
        (busyHost (.regRead 0x50)).moves = .regRead (Reg.offset (.scale .axis1)) :: []) := by
  refine ⟨rfl, by decide, by decide, rfl, rfl⟩

theorem witness_UnwrittenRegistersReadAFreeValue :
    (State.reset.written.get .height = false ∧
        (State.reset.withMoves [.regRead 0x20]).moves = .regRead (Reg.offset (.desc .height)) :: []) ∧
      (State.reset.scaleWritten = false ∧
        (State.reset.withMoves [.regRead 0x4C]).moves = .regRead (Reg.offset (.scale .axis0)) :: []) :=
  ⟨⟨rfl, rfl⟩, rfl, rfl⟩

theorem witness_AckReturnsToIdle :
    (∃ s : State, s.state = .done) ∧ (∃ s : State, s.state = .failed) ∧ (∃ s : State, s.state = .idle) ∧
      ∃ s : State, s.state = .busy :=
  ⟨⟨{ ready square [] with state := .done }, rfl⟩, ⟨{ ready square [] with state := .failed }, rfl⟩,
    ⟨ready square [], rfl⟩, ⟨running square [0, 0] [], rfl⟩⟩

theorem witness_XformAcceptance :
    (running square [0, 0] []).state = .busy ∧
      ((State.reset).state ≠ .busy ∧ State.reset.written.get .width = false) ∧
      ((ready { single with tableChannels := 5 } []).state ≠ .busy ∧
        (ready { single with tableChannels := 5 } []).written.allSet = true ∧
        validate { single with tableChannels := 5 } ≠ .noError) ∧
      (validate { single with size1D := 1 } = .noError ∧
        precondition Cfg.standard { single with size1D := 1 } = some .gridSizeOutOfRange) ∧
      (validate single = .noError ∧ precondition Cfg.standard single = none) ∧ JobState.failed ≠ .busy := by
  refine ⟨rfl, ⟨nofun, rfl⟩, ⟨nofun, rfl, nofun⟩, ⟨rfl, rfl⟩, ⟨rfl, rfl⟩, nofun⟩

/-- Descriptors at which V1, V2 (each cause), V3 and no check fire, all at their boundaries. -/
theorem witness_ValidationDecidesTheError :
    (ready single []).state ≠ .busy ∧ (ready single []).written.allSet = true ∧
      ([2, 5, 0x103].map fun v => validate { single with tableChannels := v }) = List.replicate 3 .invalidArgument ∧
      ([{ single with inType := 1 }, { single with outType := 1 }, { single with inBands := 2 },
        { four with inBands := 4, outBands := 3 }, { single with outBands := 4 }].map validate) =
          List.replicate 5 .modeMismatch ∧
      ([single, four, { single with inBands := 4, outBands := 4 }].map validate) = List.replicate 3 .noError := by
  refine ⟨nofun, rfl, by decide, by decide, by decide⟩

/-- Registers in which the checks agree. -/
theorem witness_ValidationDecidesTheError_agree :
    single.tableChannels = square.tableChannels ∧ single.inType = square.inType ∧ single.outType = square.outType ∧
      single.inBands = square.inBands ∧ single.outBands = square.outBands := ⟨rfl, rfl, rfl, rfl, rfl⟩

theorem witness_OnlyXformRaisesAnError :
    nextWith (step (ready { single with inBands := 2 } [.regWrite 0x00 1#32])) (fun t => t.err != .noError) = true ∧
      (busyHost (.sampler (some 1))).moves = .sampler (some 1) :: [] := ⟨by decide, rfl⟩

/-- In contract: `square`. Out of contract: one descriptor for each of P2 to P5, and one unwritten register. -/
theorem witness_XformRunsExactlyWhenInContract :
    (ready square []).state ≠ .busy ∧ State.reset.written.get .outBase = false ∧
      (validate square = .noError ∧ precondition Cfg.standard square = none) ∧
      ([{ single with size3D := 66 }, { single with inBase := 0xFFFFFFFE },
        { square with outBase := 0x1001, outPstride := 3 }].map (precondition Cfg.standard)) =
          [some .gridSizeOutOfRange, some .imageBeyondPix, some .imagesOverlap] ∧
      precondition { Cfg.standard with tblCapacity := 23 } single = some .tableBeyondTbl := by
  refine ⟨nofun, rfl, ⟨rfl, rfl⟩, by decide, by decide⟩

theorem witness_AfterAnError :
    ({ ready square [] with state := .failed, err := .modeMismatch } : State).StartsJob ∧
      ({ host (.sampler none) with state := .failed } : State).moves = .sampler none :: [] ∧
      ({ host (.regWrite 0x1C 5#32) with state := .failed } : State).moves =
        .regWrite (Reg.offset (.desc .width)) 5#32 :: [] :=
  ⟨⟨nofun, fun r => by cases r <;> rfl, rfl, rfl⟩, rfl, rfl⟩

theorem ready_starts (ms : List Move) : (ready square ms).StartsJob :=
  ⟨nofun, fun r => by cases r <;> rfl, rfl, rfl⟩

theorem witness_XformStartsTheJob :
    (ready square []).cfg.wellFormed = true ∧ (ready square []).StartsJob ∧
      (ready { square with width := 0 } []).StartsJob ∧ Bank.W { square with width := 0 } = 0 ∧
      Bank.H { square with height := 0 } = 0 :=
  ⟨rfl, ready_starts _, ⟨nofun, fun r => by cases r <;> rfl, rfl, rfl⟩, rfl, rfl⟩

theorem witness_CommandFrame :
    nextWith (exec .xform (ready square [])) (fun t => t.state == .busy) = true ∧
      nextWith (exec .xform (running square [0, 0] [])) (fun t => t.state == .busy) = true ∧
      nextWith (exec .ack { ready square [] with state := .done }) (fun t => t.state == .idle) = true ∧
      nextWith (exec .nop (ready square [])) (fun _ => true) = true := by decide

/-- The hypotheses of ScaleConstantRoundsDown, CoordinateFitsItsWord, GridIndexLeavesAnUpperNode and
FractionIsTheTopBits at both ends of the sizes; `other` has SCALE_BITS at least 8 too. -/
theorem witness_scaler :
    Cfg.standard.wellFormed = true ∧ other.wellFormed = true ∧ (2 ≤ 2 ∧ 2 ≤ 65) ∧ (2 ≤ 65 ∧ 65 ≤ 65) ∧
      8 ≤ Cfg.standard.scaleBits ∧ 8 ≤ other.scaleBits := by decide

theorem witness_WeightsSumToOneLessThanTheUnit :
    other.wellFormed = true ∧ 0 ≤ 2 ^ other.shiftBits - 1 ∧ 4095 ≤ 2 ^ other.shiftBits - 1 := by decide

theorem witness_BaseOffsetOfTheCell :
    Bank.tc single = 3 ∧ Bank.tc four = 4 ∧ GridSizesLegal single ∧
      (0 ≤ Bank.size single .axis0 - 2 ∧ 0 ≤ Bank.size single .axis1 - 2 ∧ 0 ≤ Bank.size single .axis2 - 2) :=
  ⟨rfl, rfl, fun a => by cases a <;> decide, by decide⟩

theorem witness_EveryCornerIsInTheTable :
    Cfg.standard.wellFormed = true ∧ validate four = .noError ∧ precondition Cfg.standard four = none ∧
      1 ≤ 1 ∧ 3 < Bank.tc four := by decide

/-- The hypotheses of LerpIsTheFloorOfTheBlend and of each clause of LerpIdentities, at `other`'s boundaries. -/
theorem witness_lerp :
    other.wellFormed = true ∧ (-32768 : Int) ≤ 32767 ∧ 4095 ≤ 2 ^ other.shiftBits - 1 ∧
      ((1 : Int) ≤ 4096 ∧ (4096 : Int) ≤ 2 ^ other.shiftBits) ∧
      (-(2 ^ other.shiftBits : Int) < -4095 ∧ (-4095 : Int) ≤ -1) ∧ (-4096 : Int) = -(2 ^ other.shiftBits : Int) := by
  decide

theorem witness_BlendsFitTheirLanes :
    Cfg.standard.wellFormed = true ∧ 32767 ≤ 2 ^ Cfg.standard.shiftBits - 1 ∧
      (∀ i j k : Nat, (-32768 : Int) ≤ (fun _ _ _ => -32768 : Nat → Nat → Nat → Int) i j k ∧
        (fun _ _ _ => -32768 : Nat → Nat → Nat → Int) i j k ≤ 32767) ∧
      (∀ i j k : Nat, (0 : Int) ≤ (fun _ _ _ => 16320 : Nat → Nat → Nat → Int) i j k ∧
        (fun _ _ _ => 16320 : Nat → Nat → Nat → Int) i j k ≤ 255 * 2 ^ Cfg.standard.precisionBits) :=
  ⟨rfl, by decide, fun _ _ _ => (by decide : (-32768 : Int) ≤ -32768 ∧ (-32768 : Int) ≤ 32767),
    fun _ _ _ => (by decide : (0 : Int) ≤ 16320 ∧ (16320 : Int) ≤ 255 * 2 ^ Cfg.standard.precisionBits)⟩

/-- The clauses of ClipSaturates and RoundClipIsMonotonic at their boundaries; RoundingIsHalfUp and
TwoStepRoundingAgrees ask only for a valid configuration. -/
theorem witness_roundClip :
    other.wellFormed = true ∧ roundShift Cfg.standard (-1048577) < 0 ∧
      0 ≤ roundShift Cfg.standard (-1048576) ∧ roundShift Cfg.standard 535822335 ≤ 255 ∧
      255 < roundShift Cfg.standard 535822336 ∧
      (1048575 : Int) < 2 ^ (Cfg.standard.precisionBits + Cfg.standard.shiftBits) - (roundingBias Cfg.standard : Int) ∧
      255 * 2 ^ (Cfg.standard.precisionBits + Cfg.standard.shiftBits) - (roundingBias Cfg.standard : Int) ≤
        533725184 := by
  decide

/-- The tie case of GridCornerExactness at its ends, and the ordinary case. -/
theorem witness_GridCornerExactness :
    (fun _ _ _ => 32 : Nat → Nat → Nat → Int) 0 0 0 = 32 ∧ (0 < 32 ∧ (32 : Int) < 16320 ∧ (32 : Int) % 64 = 32) ∧
      ((16290 : Int) < 16320 ∧ (16290 : Int) % 64 = 34) ∧ (-32768 : Int) ≤ 64 ∧ (64 : Int) % 64 = 0 := by
  refine ⟨rfl, by decide, by decide, by decide, by decide⟩

/-- Two descriptors, two pixels and two tables that agree on what the sample depends on; the second table differs
beyond the gathered elements. -/
theorem witness_SampleDependsOnlyOnItsPixel :
    Bank.tc square = Bank.tc single ∧ (∀ a, Bank.size square a = Bank.size single a) ∧
      (∀ b, b < 3 → Memory.read ([] : List Host.Cell) (sampleAddr square .input 1 1 b) =
        Memory.read ([] : List Host.Cell) (sampleAddr single .input 0 0 b)) ∧
      (0 = baseOffset single (scaleAxis Cfg.standard (Bank.size single .axis0) 0#8).index
        (scaleAxis Cfg.standard (Bank.size single .axis1) 0#8).index
        (scaleAxis Cfg.standard (Bank.size single .axis2) 0#8).index) ∧
      ∀ di dj dk, di ≤ 1 → dj ≤ 1 → dk ≤ 1 →
        Memory.read (Memory.write tableI 24 7#16) (cornerOffset single 0 di dj dk + 2) =
          Memory.read tableI (cornerOffset single 0 di dj dk + 2) := by
  refine ⟨rfl, fun a => by cases a <;> rfl, fun _ _ => rfl, by decide, ?_⟩
  intro di dj dk h1 h2 h3
  refine Memory.read_write_ne _ _ _ _ ?_
  have e : cornerOffset single 0 di dj dk = 0 + di * 3 + dj * 6 + dk * 12 := rfl
  rw [e]
  omega

/-- The hypotheses of PixelStepWritesItsPixel, PixelStepFrame and the first clause of AnyUnfinishedRowMayStep, on the
second row while the first is ahead, in a job that no breach of the host's duties has marked. -/
theorem witness_pixelStep :
    Memory.wf (busyHost (.sampler (some 1))).pix = true ∧ (busyHost (.sampler (some 1))).state = .busy ∧
      (busyHost (.sampler (some 1))).job = some { latched := square, cur := [1, 0], disturbed := false } ∧
      [1, 0][1]? = some 0 ∧
      0 < Bank.W square ∧ (busyHost (.sampler (some 1))).moves = .sampler (some 1) :: [] := by
  refine ⟨rfl, rfl, rfl, rfl, by decide, rfl⟩

/-- A finished row, and a least unfinished row behind it. -/
theorem witness_AnyUnfinishedRowMayStep :
    (running square [2, 1] [.sampler (some 0)]).job = some { latched := square, cur := [2, 1], disturbed := false } ∧
      [2, 1][0]? = some 2 ∧ Bank.W square ≤ 2 ∧ [2, 1][1]? = some 1 ∧ 1 < Bank.W square ∧
      ∀ v n, v < 1 → [2, 1][v]? = some n → Bank.W square ≤ n := by
  refine ⟨rfl, rfl, by decide, rfl, by decide, ?_⟩
  intro v n hv hn
  obtain rfl : v = 0 := by omega
  injection hn with hn
  subst hn
  decide

/-- In BUSY with every row finished and with one unfinished; outside BUSY in each of IDLE, DONE and FAILED, as runs
reach them: without a job. -/
theorem witness_CompletionEndsTheJob :
    ((running square [2, 2] [.sampler none]).state = .busy ∧
        (running square [2, 2] [.sampler none]).job = some { latched := square, cur := [2, 2], disturbed := false } ∧
        (∀ x ∈ [2, 2], Bank.W square ≤ x) ∧ (running square [2, 2] [.sampler none]).moves = .sampler none :: []) ∧
      (∃ x ∈ [2, 1], x < Bank.W square) ∧ (running square [2, 2] []).moves = [] ∧
      ∀ st ∈ [JobState.idle, .done, .failed], ({ host (.sampler none) with state := st } : State).state ≠ .busy ∧
        ({ host (.sampler none) with state := st } : State).job = none := by
  refine ⟨⟨rfl, rfl, by decide, rfl⟩, by decide, rfl, ?_⟩
  intro st hst
  simp only [List.mem_cons, List.not_mem_nil, or_false] at hst
  rcases hst with rfl | rfl | rfl <;> exact ⟨nofun, rfl⟩

theorem witness_BusyJobReachesDone :
    (running square [1, 0] []).Inv ∧
      (running square [1, 0] []).job = some { latched := square, cur := [1, 0], disturbed := false } ∧
      (running square [1, 0] []).moves = [] ∧ 3 ≤ Bank.W square * Bank.H square - [1, 0].sum :=
  ⟨square_inv _ _ rfl (by decide), rfl, rfl, by decide⟩

theorem witness_EveryStepKeepsTheInvariant :
    (running square [1, 0] []).Inv ∧ nextWith (step (running square [1, 0] [])) (fun _ => true) = true :=
  ⟨square_inv _ _ rfl (by decide), by decide⟩

/-- A fresh job from its acceptance, and a job with progress seen from a memory it started with; a step that keeps the
job, and one that breaks the host's duties, both with a next state. -/
theorem witness_JobProgressIsKept :
    ((ready square []).state ≠ .busy ∧ exec .xform (ready square []) = .next (running square [0, 0] [])) ∧
      ((running square [0, 0] []).Inv ∧
        (running square [0, 0] []).job = some { latched := square, cur := [0, 0], disturbed := false } ∧
        JobProgress [] (running square [0, 0] []) { latched := square, cur := [0, 0], disturbed := false }) ∧
      nextWith (step (running square [0, 0] [])) (fun t => t.state == .busy) = true ∧
      nextWith (step (running square [0, 0] [.tblWrite 5 7#16])) (fun t => t.state == .busy) = true := by
  refine ⟨⟨nofun, rfl⟩, ⟨square_inv _ _ rfl (by decide), rfl, ?_, fun _ _ _ _ _ _ _ _ => rfl⟩, by decide, by decide⟩
  intro y x n ch hn hx
  match y with
  | 0 => injection hn with hn; omega
  | 1 => injection hn with hn; omega
  | y + 2 => cases hn

theorem witness_XformComputesTheWholeImage :
    (ready square []).Inv ∧ (ready square []).StartsJob ∧ (ready square []).moves = [] :=
  ⟨ready_inv _ _, ready_starts _, rfl⟩

/-- Two complete schedules of the sampler on an image of one pixel: one names its row, one does not. -/
theorem witness_AllSchedulesAgree :
    (running single [0] []).Inv ∧
      (running single [0] []).job = some { latched := single, cur := [0], disturbed := false } ∧
      (∀ x ∈ [0], x = 0) ∧ SamplerOnly [.sampler (some 0), .sampler none] ∧
      nextWith (runSteps 2 (running single [0] [.sampler (some 0), .sampler none])) (fun t => t.state == .done) = true ∧
      SamplerOnly [.sampler none, .sampler none, .sampler none] ∧
      nextWith (runSteps 3 (running single [0] [.sampler none, .sampler none, .sampler none]))
        (fun t => t.state == .done) = true := by
  refine ⟨single_inv _, rfl, by decide, ?_, by decide, ?_, by decide⟩
  · intro m hm
    rcases List.mem_cons.1 hm with rfl | hm
    · exact ⟨_, rfl⟩
    · rcases List.mem_cons.1 hm with rfl | hm
      · exact ⟨_, rfl⟩
      · cases hm
  · intro m hm
    obtain ⟨_, rfl⟩ := List.mem_replicate.1 (show m ∈ List.replicate 3 (Move.sampler none) from hm)
    exact ⟨_, rfl⟩

/-- In place and apart: the same input, two outputs. -/
theorem witness_InPlaceSafety :
    (ready square []).Inv ∧ (ready { square with outBase := 0x2000 } []).Inv ∧ (ready square []).StartsJob ∧
      (ready { square with outBase := 0x2000 } []).StartsJob ∧
      ({ square with outBase := 0x2000 } : Descriptor) = { square with
        outType := 0, outBands := 3, outPstride := 3, outRstride := 6, outBase := 0x2000 } :=
  ⟨ready_inv _ _, ready_inv _ _, ready_starts _, ⟨nofun, fun r => by cases r <;> rfl, rfl, rfl⟩, rfl⟩

theorem witness_AliasedAndDisjointImagesAreSafe :
    Bank.tc square = 3 ∧
      (square.inBase = square.outBase ∧ square.inPstride = square.outPstride ∧
        square.inRstride = square.outRstride ∧ 3 ≤ square.inPstride.toNat ∧
        Bank.W square * square.inPstride.toNat ≤ square.inRstride.toNat) ∧
      (∀ a, IsWritten single a → ¬ IsRead single a) ∧
      Bank.W single * single.outPstride.toNat ≤ single.outRstride.toNat := by
  refine ⟨rfl, ⟨rfl, rfl, rfl, by decide, by decide⟩, ?_, by decide⟩
  rintro a ⟨y, x, c, hy, hx, hc, rfl⟩ ⟨v, u, b, hv, hu, hb, he⟩
  have e1 := sampleAddr_le_lastAddr single .input v u b hv hu hb
  have e2 : 0x2000 ≤ sampleAddr single .output y x c := by
    show 0x2000 ≤ 0x2000 + y * _ + x * _ + c
    omega
  have e3 : lastAddr single .input = 0x1002 := by decide
  omega

theorem witness_ResetEventRestoresTheBlock :
    (busyHost (.reset [])).moves = .reset [] :: [] ∧
      (busyHost (.reset [(1, [0])])).moves = .reset [(1, [0])] :: [] ∧
      (host (.reset [(1, [0])])).state ≠ .busy := ⟨rfl, rfl, nofun⟩

/-- Two rows in flight, the first with bands 0 and 2 written. -/
theorem witness_ResetMidJobLeavesAMixture :
    Memory.wf (busyHost (.reset [(0, [0, 2]), (1, [])])).pix = true ∧
      (busyHost (.reset [(0, [0, 2]), (1, [])])).state = .busy ∧
      (busyHost (.reset [(0, [0, 2]), (1, [])])).job = some { latched := square, cur := [1, 0], disturbed := false } ∧
      (busyHost (.reset [(0, [0, 2]), (1, [])])).moves = .reset [(0, [0, 2]), (1, [])] :: [] :=
  ⟨rfl, rfl, rfl, rfl⟩

/-- Bytes and elements on both sides of the running job's, and inside their spaces. -/
theorem witness_HostDutiesWhileBusy :
    ((running single [0] [.pixWrite 0x1002 7#8]).state = .busy ∧
        (running single [0] [.pixWrite 0x1002 7#8]).job = some { latched := single, cur := [0], disturbed := false } ∧
        (running single [0] [.pixWrite 0x1002 7#8]).moves = .pixWrite 0x1002 7#8 :: [] ∧
        (running single [0] [.pixRead 0x2000]).moves = .pixRead 0x2000 :: [] ∧
        (running single [0] [.tblWrite 23 7#16]).moves = .tblWrite 23 7#16 :: [] ∧
        (running single [0] [.tblRead 23]).moves = .tblRead 23 :: [] ∧
        Memory.wf (running single [0] []).pix = true) ∧
      IsRead single 0x1002 ∧ IsWritten single 0x2000 ∧ ¬ IsRead single 0x1003 ∧ ¬ IsWritten single 0x1FFF ∧
      0x2000 < 2 ^ Cfg.standard.addrBits ∧
      InTable single 23 ∧ ¬ InTable single 24 ∧
      24 < Cfg.standard.tblCapacity := by
  rw [← jobReads_iff, ← jobReads_iff, ← jobWrites_iff, ← jobWrites_iff]
  unfold InTable
  exact ⟨⟨rfl, rfl, rfl, rfl, rfl, rfl, rfl⟩, by decide⟩

theorem witness_HostMemoryAccess :
    (ready square []).state ≠ .busy ∧ Memory.wf (ready square []).pix = true ∧ Memory.wf (ready square []).tbl = true ∧
      0xFFFFFFFF < 2 ^ Cfg.standard.addrBits ∧ 2 ^ Cfg.standard.addrBits ≤ 0x100000000 ∧
      1098499 < Cfg.standard.tblCapacity ∧ Cfg.standard.tblCapacity ≤ 1098500 := by
  refine ⟨nofun, rfl, rfl, by decide, by decide, by decide, by decide⟩

theorem witness_SpacesAreDisjoint :
    nextWith (step (host (.tblWrite 5 7#16))) (fun t => t.tbl == [(5, 7#16)]) = true ∧
      nextWith (step (host (.pixWrite 5 7#8))) (fun t => t.pix == [(5, 7#8)]) = true ∧
      nextWith (step { running single [0] [] with pix := [(0x2000, 7#8)] }) (fun t => t.pix == []) = true := by
  decide

theorem witness_PollReadsStatusUntilNotBusy :
    ((host .poll).moves = .poll :: [] ∧ (host .poll).state ≠ .busy) ∧
      (busyHost .poll).moves = .poll :: [] ∧ (busyHost .poll).state = .busy := by
  refine ⟨⟨rfl, nofun⟩, rfl, rfl⟩

end Sys2Proof.Tests
end

section
/-! PROOFS. What the host's register accesses do, said once for each kind of register (10_state.md R22, R23;
30_encoding.md R81, R85). -/

namespace Sys2Proof.Machine

/-! ### The register map -/

theorem Reg.number_le (r : Reg) : r.number ≤ 21 := by
  cases r with
  | cmd | status | params => decide
  | desc q => cases q <;> decide
  | scale a => cases a <;> decide

/-- Outside the interface no register stands (30_encoding.md R85). -/
theorem Reg.ofOffset_outside {off : Nat} (h : off % 4 ≠ 0 ∨ 0x54 < off) : Reg.ofOffset off = none := by
  cases hr : Reg.ofOffset off with
  | none => rfl
  | some r =>
    have ho : off = 4 * r.number := Reg.eq_offset_of_ofOffset hr
    have hn := r.number_le
    omega

/-! ### Command words -/

/-- A command's word is the only one that decodes to it. -/
theorem eq_encode_of_decode {w : Word} {i : Instr} (h : decode w = .ok i) : w = encode i := by
  unfold decode at h
  split at h
  · next hw => cases h; exact hw
  · split at h
    · next hw => cases h; exact hw
    · split at h
      · next hw => cases h; exact hw
      · cases h

theorem State.writeCmd_of_decode {s : State} {w : Word} {i : Instr} (h : decode w = .ok i) :
    s.writeCmd w = exec i s := by
  simp only [State.writeCmd, h]

/-! ### Register accesses -/

section Access

variable {s : State} {off : Nat} {v : Word}

theorem State.regWrite_cmd (h : Reg.ofOffset off = some .cmd) : s.regWrite off v = s.writeCmd v := by
  simp only [State.regWrite, h]

theorem State.regWrite_desc {q : DReg} (h : Reg.ofOffset off = some (.desc q)) :
    s.regWrite off v = .next (s.writeDesc q v) := by
  simp only [State.regWrite, h]

/-- The read-only registers are STATUS, PARAMS and SCALE0..2. -/
theorem State.regWrite_readOnly {r : Reg} (h : Reg.ofOffset off = some r)
    (hr : r = .status ∨ r = .params ∨ ∃ a, r = .scale a) : s.regWrite off v = .next s := by
  rcases hr with rfl | rfl | ⟨a, rfl⟩ <;> simp only [State.regWrite, h]

theorem State.regWrite_outside (h : Reg.ofOffset off = none) :
    s.regWrite off v = .refused (.outsideRegInterface off) := by
  simp only [State.regWrite, h]

theorem State.regRead_inside {r : Reg} (h : Reg.ofOffset off = some r) :
    s.regRead off = .next (s.returnToHost (s.readReg r)) := by
  simp only [State.regRead, h]

theorem State.regRead_outside (h : Reg.ofOffset off = none) :
    s.regRead off = .refused (.outsideRegInterface off) := by
  simp only [State.regRead, h]

end Access

/-- What a register reads as does not depend on the moves still to come. -/
@[simp] theorem State.readReg_withMoves (s : State) (ms : List Move) (r : Reg) :
    (s.withMoves ms).readReg r = s.readReg r := by
  cases r <;> rfl

/-! ### Register accesses as steps -/

section Step

variable {s : State} {off : Nat} {rest : List Move}

theorem step_regWrite {v : Word} (h : s.moves = .regWrite off v :: rest) :
    step s = (s.withMoves rest).regWrite off v :=
  step_move s _ rest h

/-- A read of a register returns what the register holds and changes nothing else (10_state.md R28). -/
theorem step_regRead {r : Reg} (ho : Reg.ofOffset off = some r) (h : s.moves = .regRead off :: rest) :
    step s = .next { s with moves := rest, readData := s.readReg r } := by
  calc step s = (s.withMoves rest).regRead off := step_move s _ rest h
    _ = .next ((s.withMoves rest).returnToHost (s.readReg r)) := by
      rw [State.regRead_inside ho, State.readReg_withMoves]

theorem step_regAccess_outside {v : Word} (ho : Reg.ofOffset off = none)
    (h : s.moves = .regWrite off v :: rest ∨ s.moves = .regRead off :: rest) :
    step s = .refused (.outsideRegInterface off) := by
  rcases h with h | h
  · exact (step_regWrite h).trans (State.regWrite_outside ho)
  · exact (step_move s _ rest h).trans (State.regRead_outside ho)

theorem step_regNarrow {n : Nat} (h : s.moves = .regNarrow off n :: rest) :
    step s = .refused (.outsideRegInterface off) :=
  step_move s _ rest h

/-- A write of a read-only register is ignored (30_encoding.md R85). -/
theorem step_regWrite_readOnly {r : Reg} {v : Word} (ho : Reg.ofOffset off = some r)
    (hr : r = .status ∨ r = .params ∨ ∃ a, r = .scale a) (h : s.moves = .regWrite off v :: rest) :
    step s = .next { s with moves := rest } :=
  (step_regWrite h).trans (State.regWrite_readOnly ho hr)

/-- Outside BUSY a write of a descriptor register takes effect at once (10_state.md R29). -/
theorem step_regWrite_desc {q : DReg} {v : Word} (ho : Reg.ofOffset off = some (.desc q)) (hb : s.state ≠ .busy)
    (h : s.moves = .regWrite off v :: rest) :
    step s = .next { s with desc := s.desc.set q v, written := s.written.set q true, moves := rest } := by
  rw [step_regWrite h, State.regWrite_desc ho, State.writeDesc_notBusy (s.withMoves rest) q v hb]
  rfl

/-- A write of CMD runs the decoded command (10_state.md R23). -/
theorem step_regWrite_cmd {w : Word} {i : Instr} (hd : decode w = .ok i) (h : s.moves = .regWrite 0x00 w :: rest) :
    step s = exec i (s.withMoves rest) := by
  calc step s = (s.withMoves rest).regWrite 0x00 w := step_regWrite h
    _ = (s.withMoves rest).writeCmd w := State.regWrite_cmd (Reg.ofOffset_offset .cmd)
    _ = exec i (s.withMoves rest) := State.writeCmd_of_decode hd

end Step

end Sys2Proof.Machine
end

section
/-! PROOFS. The register map and the accesses to CMD (10_state.md R22, R23). -/

namespace Sys2Proof.Machine

/-- Settles O4: the two rules for a CMD access, at CMD's offset 0. -/
theorem commandWriteRunsTheCommand : Obligations.CommandWriteRunsTheCommand := by
  intro s rest
  exact ⟨fun w i hd h => step_regWrite_cmd hd h, fun h => step_regRead (Reg.ofOffset_offset .cmd) h⟩

/-- Settles O6: the map by its table, the accesses by the rule for each kind of register. -/
theorem registerMap : Obligations.RegisterMap := by
  refine ⟨by decide, fun off => Reg.ofOffset_outside, ?_, ?_⟩
  · intro s off n v rest
    exact ⟨step_regAccess_outside, step_regNarrow⟩
  · intro s off r v rest ho
    refine ⟨?_, step_regWrite_readOnly ho, ?_, ?_⟩
    · rintro rfl h
      exact step_regRead ho h
    · rintro q rfl hb h
      exact ⟨_, step_regWrite_desc ho hb h, Bank.get_set_same _ _ _, Bank.get_set_same _ _ _⟩
    · rintro q rfl hw h
      have hv : s.readReg (.desc q) = s.desc.get q := s.descValue_written q hw
      rw [step_regRead ho h, hv]

end Sys2Proof.Machine
end

section
/-! PROOFS. STATUS and PARAMS: the fields of their words, and that the configuration is constant (10_state.md R24,
R26, R36). -/

namespace Sys2Proof.Machine

/-! ### The STATUS word -/

theorem JobState.code_lt (st : JobState) : st.code < 4 := by cases st <;> decide

theorem ErrCode.code_lt (e : ErrCode) : e.code < 4 := by cases e <;> decide

theorem JobState.code_inj (st st' : JobState) : st.code = st'.code ↔ st = st' := by
  cases st <;> cases st' <;> decide

theorem ErrCode.code_eq_zero (e : ErrCode) : e.code = 0 ↔ e = .noError := by cases e <;> decide

theorem statusWord_toNat (st : JobState) (e : ErrCode) : (statusWord st e).toNat = st.code + 4 * e.code := by
  have hs := st.code_lt
  have he := e.code_lt
  rw [statusWord, BitVec.toNat_ofNat, Nat.mod_eq_of_lt]
  omega

theorem statusWord_state (st : JobState) (e : ErrCode) : (statusWord st e).toNat % 4 = st.code := by
  have hs := st.code_lt
  rw [statusWord_toNat]
  omega

theorem statusWord_err (st : JobState) (e : ErrCode) : (statusWord st e).toNat / 4 % 4 = e.code := by
  have hs := st.code_lt
  have he := e.code_lt
  rw [statusWord_toNat]
  omega

theorem statusWord_reserved (st : JobState) (e : ErrCode) : (statusWord st e).toNat / 16 = 0 := by
  have hs := st.code_lt
  have he := e.code_lt
  rw [statusWord_toNat]
  omega

/-- Settles O8: the fields of the STATUS word, and the invariant read through the codes. -/
theorem statusRegisterFields : Obligations.StatusRegisterFields := by
  intro s rest h
  refine ⟨statusWord s.state s.err, step_regRead (Reg.ofOffset_offset .status) h, statusWord_state _ _,
    statusWord_err _ _, statusWord_reserved _ _, fun hi => ?_⟩
  rw [statusWord_state, statusWord_err]
  constructor
  · calc s.err.code ≠ 0 ↔ s.err ≠ .noError := not_congr s.err.code_eq_zero
      _ ↔ s.state = .failed := hi.errIffFailed
      _ ↔ s.state.code = 3 := (JobState.code_inj s.state .failed).symm
  · calc s.state.code = 1 ↔ s.state = .busy := JobState.code_inj s.state .busy
      _ ↔ s.job.isSome = true := hi.jobIffBusy.symm

/-! ### The PARAMS word -/

/-- In a valid configuration no field of PARAMS runs into the next. -/
theorem paramsWord_toNat {c : Cfg} (hc : c.wellFormed = true) :
    (paramsWord c).toNat = c.precisionBits + 2 ^ 8 * c.scaleBits + 2 ^ 16 * c.shiftBits := by
  obtain ⟨hp, hs, -, hsc, -⟩ := (Cfg.wellFormed_iff c).1 hc
  rw [paramsWord, BitVec.toNat_ofNat, Nat.mod_eq_of_lt]
  omega

/-! ### The configuration is constant -/

theorem exec_keeps_cfg {i : Instr} {s t : State} (h : exec i s = .next t) : t.cfg = s.cfg := by
  rcases exec_next h with rfl | ⟨-, -, -, rfl⟩ | ⟨-, -, -, -, -, rfl⟩ | ⟨-, -, rfl⟩ <;> rfl

@[simp] theorem State.poll_cfg (s : State) : s.poll.cfg = s.cfg := by rw [s.poll_frame]

theorem State.runMove_keeps_cfg {s t : State} {m : Move} (h : s.runMove m = .next t) : t.cfg = s.cfg := by
  rcases State.runMove_next h with ⟨_, _, i, -, -, -, he⟩ | ⟨_, v, q, -, -, rfl⟩ | ⟨_, _, -, rfl⟩ |
    ⟨v, -, rfl⟩ | ⟨a, -, -, rfl⟩ | ⟨a, v, -, -, ⟨-, rfl⟩ | ⟨-, rfl⟩⟩ | ⟨o, v, -, -, ⟨-, rfl⟩ | ⟨-, rfl⟩⟩ |
    ⟨-, rfl⟩ | ⟨row, -, rfl⟩ | ⟨torn, -, rfl⟩
  · exact exec_keeps_cfg he
  all_goals simp

/-- No step changes the configuration (10_state.md R36). -/
theorem step_keeps_cfg {s t : State} (h : step s = .next t) : t.cfg = s.cfg := by
  rcases step_next h with ⟨-, rfl⟩ | ⟨m, rest, -, hm⟩
  · exact s.samplerStep_cfg none
  · exact State.runMove_keeps_cfg (s := s.withMoves rest) hm

/-- Settles O9: the fields of the PARAMS word, a function of the configuration, which no step changes. -/
theorem paramsRegisterFields : Obligations.ParamsRegisterFields := by
  refine ⟨fun s rest hc h => ?_, fun s t h => by rw [step_keeps_cfg h]⟩
  obtain ⟨hp, hs, -, hsc, -⟩ := (Cfg.wellFormed_iff s.cfg).1 hc
  have hw := paramsWord_toNat hc
  refine ⟨paramsWord s.cfg, step_regRead (Reg.ofOffset_offset .params) h, by omega, by omega, by omega, by omega,
    fun hd => ?_⟩
  rw [hd]
  decide

end Sys2Proof.Machine
end

section
/-! PROOFS. SCALE0..2: what changes them, and what they then hold (10_state.md R27). -/

namespace Sys2Proof.Machine

/-- SCALE0..2, and whether they hold values, are the same in both states. -/
def SameScale (s t : State) : Prop := t.scaleWritten = s.scaleWritten ∧ ∀ a, t.scale a = s.scale a

theorem SameScale.refl (s : State) : SameScale s s := ⟨rfl, fun _ => rfl⟩

theorem State.StartsJob.gridSizesLegal {s : State} (h : s.StartsJob) : GridSizesLegal s.desc := by
  obtain ⟨-, -, -, hp⟩ := h
  exact (p2_iff _).1 ((precondition_eq_none _ _).1 hp).1

@[simp] theorem State.writeDesc_scale (s : State) (q : DReg) (v : Word) (a : Axis) :
    (s.writeDesc q v).scale a = s.scale a := by
  cases a <;> simp [State.scale]

@[simp] theorem State.poll_scaleWritten (s : State) : s.poll.scaleWritten = s.scaleWritten := by rw [s.poll_frame]

@[simp] theorem State.poll_scale (s : State) (a : Axis) : s.poll.scale a = s.scale a := by
  rw [s.poll_frame]
  cases a <;> rfl

/-- A command leaves SCALE0..2 alone, or it is an XFORM that starts a job. -/
theorem exec_scale {i : Instr} {s t : State} (h : exec i s = .next t) :
    SameScale s t ∨ i = .xform ∧ s.StartsJob ∧ t = s.startJob := by
  rcases exec_next h with rfl | ⟨-, -, -, rfl⟩ | ⟨hi, hb, hw, hv, hp, ht⟩ | ⟨-, -, rfl⟩
  · exact .inl (.refl _)
  · exact .inl ⟨rfl, s.enterError_scale _⟩
  · exact .inr ⟨hi, ⟨hb, (Bank.allSet_iff _).1 hw, hv, hp⟩, ht⟩
  · exact .inl ⟨rfl, s.returnToIdle_scale⟩

/-- A move leaves SCALE0..2 alone, or it is a reset, or a CMD write of XFORM that starts a job. -/
theorem State.runMove_scale {s t : State} {m : Move} (h : s.runMove m = .next t) :
    SameScale s t ∨ (∃ torn, m = .reset torn) ∨
      m = .regWrite 0x00 0x00000001#32 ∧ s.StartsJob ∧ t = s.startJob := by
  rcases State.runMove_next h with ⟨off, w, i, rfl, ho, hd, he⟩ | ⟨_, v, q, -, -, rfl⟩ | ⟨_, _, -, rfl⟩ |
    ⟨v, -, rfl⟩ | ⟨a, -, -, rfl⟩ | ⟨a, v, -, -, ⟨-, rfl⟩ | ⟨-, rfl⟩⟩ | ⟨o, v, -, -, ⟨-, rfl⟩ | ⟨-, rfl⟩⟩ |
    ⟨-, rfl⟩ | ⟨row, -, rfl⟩ | ⟨torn, hm, -⟩
  · rcases exec_scale he with hs | ⟨rfl, hstart, ht⟩
    · exact .inl hs
    · obtain rfl : off = 0x00 := Reg.eq_offset_of_ofOffset ho
      obtain rfl : w = 0x00000001#32 := eq_encode_of_decode hd
      exact .inr (.inr ⟨rfl, hstart, ht⟩)
  case inr.inr.inr.inr.inr.inr.inr.inr.inr => exact .inr (.inl ⟨torn, hm⟩)
  all_goals exact .inl ⟨by simp, by simp⟩

/-- Settles O13: a step that changes SCALE0..2 is a reset or the start of a job, which writes the constants. -/
theorem scaleRegistersDescribeTheirJob : Obligations.ScaleRegistersDescribeTheirJob := by
  intro s t hc h
  refine ⟨fun hchange => ?_, fun a rest hw hm => ?_⟩
  · have hne : ¬ SameScale s t := by
      rintro ⟨hsw, hsc⟩
      rcases hchange with hsw' | ⟨a, ha⟩
      · exact hsw' hsw
      · exact ha (hsc a)
    rcases step_next h with ⟨-, rfl⟩ | ⟨m, rest, hm, hrun⟩
    · exact absurd ⟨s.samplerStep_scaleWritten none, s.samplerStep_scale none⟩ hne
    · rcases State.runMove_scale hrun with ⟨hsw, hsc⟩ | ⟨torn, rfl⟩ | ⟨rfl, hstart, rfl⟩
      · exact absurd ⟨hsw, fun a => (hsc a).trans (s.withMoves_scale rest a)⟩ hne
      · exact .inl ⟨torn, rest, hm⟩
      · have hscale := State.startJob_scale _ hc hstart.gridSizesLegal
        obtain ⟨hb, -, hv, -⟩ := hstart
        exact .inr ⟨⟨rest, hm⟩, hb, hv, rfl, hscale⟩
  · have hv : s.readReg (.scale a) = s.scale a := s.scaleValue_written a hw
    rw [step_regRead (Reg.ofOffset_offset _) hm, hv] at h
    injection h with h
    rw [← h]

end Sys2Proof.Machine
end

section
/-! PROOFS. Command words and register accesses without a meaning: reserved words act as NOP, accesses outside the
interface are refused, read-only registers and reserved bits stay (30_encoding.md R82, R84, R85). -/

namespace Sys2Proof.Machine

/-! ### Reserved command words -/

section Reserved

variable {w : Word} (h0 : w ≠ 0x00000000#32) (h1 : w ≠ 0x00000001#32) (h2 : w ≠ 0x00000002#32)

include h0 h1 h2

theorem decode_reserved : decode w = .error (.reserved w) := by
  rw [decode, if_neg h0, if_neg h1, if_neg h2]

theorem State.writeCmd_reserved (s : State) : s.writeCmd w = .next s := by
  rw [State.writeCmd, decode_reserved h0 h1 h2]

/-- The hardware treats a reserved command word as NOP (30_encoding.md R84). -/
theorem step_regWrite_cmd_reserved {s : State} {rest : List Move} (h : s.moves = .regWrite 0x00 w :: rest) :
    step s = .next { s with moves := rest } := by
  calc step s = (s.withMoves rest).regWrite 0x00 w := step_regWrite h
    _ = (s.withMoves rest).writeCmd w := State.regWrite_cmd (Reg.ofOffset_offset .cmd)
    _ = .next (s.withMoves rest) := State.writeCmd_reserved h0 h1 h2 _

end Reserved

/-- Settles O1: the words of the three commands, and the rule for every other word. -/
theorem commandWordsDecode : Obligations.CommandWordsDecode := by
  obtain ⟨-, -, hnop⟩ := Laws.CommandWord.nop
  obtain ⟨-, -, hxform⟩ := Laws.CommandWord.xform
  obtain ⟨-, -, hack⟩ := Laws.CommandWord.ack
  exact ⟨hnop, hxform, hack, fun _ => decode_reserved⟩

/-- Settles O3: the write reaches CMD, whose reaction to a word that decodes to no command is nothing. -/
theorem reservedWordActsAsNop : Obligations.ReservedWordActsAsNop := by
  intro s w rest h0 h1 h2 h
  exact step_regWrite_cmd_reserved h0 h1 h2 h

/-! ### Read-only registers and reserved bits -/

/-- The offsets of STATUS, PARAMS and SCALE0..2 (10_state.md R22). -/
theorem Reg.ofOffset_readOnly {off : Nat} (h : off ∈ [0x04, 0x08, 0x4C, 0x50, 0x54]) :
    ∃ r, Reg.ofOffset off = some r ∧ (r = .status ∨ r = .params ∨ ∃ a, r = .scale a) := by
  simp only [List.mem_cons, List.not_mem_nil, or_false] at h
  rcases h with rfl | rfl | rfl | rfl | rfl
  · exact ⟨_, Reg.ofOffset_offset .status, .inl rfl⟩
  · exact ⟨_, Reg.ofOffset_offset .params, .inr (.inl rfl)⟩
  · exact ⟨_, Reg.ofOffset_offset (.scale .axis0), .inr (.inr ⟨_, rfl⟩)⟩
  · exact ⟨_, Reg.ofOffset_offset (.scale .axis1), .inr (.inr ⟨_, rfl⟩)⟩
  · exact ⟨_, Reg.ofOffset_offset (.scale .axis2), .inr (.inr ⟨_, rfl⟩)⟩

/-- Bits 31..24 of PARAMS are 0: the three fields fill the bits below (10_state.md R26). -/
theorem paramsWord_reserved {c : Cfg} (hc : c.wellFormed = true) : (paramsWord c).toNat / 2 ^ 24 = 0 := by
  obtain ⟨hp, hs, -, hsc, -⟩ := (Cfg.wellFormed_iff c).1 hc
  have hw := paramsWord_toNat hc
  omega

/-- Settles O7: each clause by the rule for its access, the reserved bits by the words of STATUS and PARAMS. -/
theorem outsideAccessesRefused : Obligations.OutsideAccessesRefused := by
  intro s off n v rest
  refine ⟨fun ho => ?outside, step_regNarrow, fun ho h => ?readOnly, step_regRead (Reg.ofOffset_offset .cmd),
    fun h => ?status, fun hc h => ?params, fun q ho hb h => ?desc⟩
  case outside =>
    have hnone := Reg.ofOffset_outside ho
    exact ⟨fun h => step_regAccess_outside hnone (.inl h),
      fun h => step_regAccess_outside (v := v) hnone (.inr h)⟩
  case readOnly =>
    obtain ⟨r, hr, hkind⟩ := Reg.ofOffset_readOnly ho
    exact step_regWrite_readOnly hr hkind h
  case status => exact ⟨_, step_regRead (Reg.ofOffset_offset .status) h, statusWord_reserved _ _⟩
  case params => exact ⟨_, step_regRead (Reg.ofOffset_offset .params) h, paramsWord_reserved hc⟩
  case desc =>
    subst ho
    exact ⟨_, step_regWrite_desc (Reg.ofOffset_offset _) hb h, Bank.get_set_same _ _ _⟩

end Sys2Proof.Machine
end

section
/-! PROOFS. The reactions to NOP, ACK and XFORM: one equation for each branch of 40_transform_command.md R100, R112
and R101. -/

namespace Sys2Proof.Machine

/-! ### NOP and ACK -/

/-- Settles O15: NOP's arm is the identity. -/
theorem nopChangesNothing : Obligations.NopChangesNothing := exec_nop

theorem exec_ack_finished {s : State} (h : s.state = .done ∨ s.state = .failed) :
    exec .ack s = .next s.returnToIdle := by
  rcases h with h | h <;> simp only [exec_ack, execAck, h]

theorem exec_ack_idle_or_busy {s : State} (h : s.state = .idle ∨ s.state = .busy) : exec .ack s = .next s := by
  rcases h with h | h <;> simp only [exec_ack, execAck, h]

/-- Settles O16: by the two rules for ACK. -/
theorem ackReturnsToIdle : Obligations.AckReturnsToIdle :=
  fun _ => ⟨exec_ack_finished, exec_ack_idle_or_busy⟩

/-! ### XFORM -/

theorem exec_xform_busy {s : State} (h : s.state = .busy) : exec .xform s = .next s := by
  rw [exec_xform, execXform, if_pos h]

theorem Bank.allSet_eq_false_iff (b : Bank Bool) : b.allSet = false ↔ ∃ r, b.get r = false := by
  rw [← Bool.not_eq_true, Bank.allSet_iff]
  simp only [not_forall, Bool.not_eq_true]

section Accepted

variable {s : State} (hb : s.state ≠ .busy)

include hb

/-- P1 comes first (40_transform_command.md R104). -/
theorem exec_xform_unwritten (h : ∃ r, s.written.get r = false) : exec .xform s = .refused .descriptorUnwritten := by
  have hw := (Bank.allSet_eq_false_iff s.written).2 h
  simp [exec_xform, execXform, hb, hw]

variable (hw : ∀ r, s.written.get r = true)

include hw

/-- Error entry, with the code of the first check that fires (60_exceptions.md R189, R190). -/
theorem exec_xform_invalid (hv : validate s.desc ≠ .noError) :
    exec .xform s = .next (s.enterError (validate s.desc)) := by
  have hset := (Bank.allSet_iff s.written).2 hw
  cases h : validate s.desc with
  | noError => exact absurd h hv
  | invalidArgument => simp [exec_xform, execXform, hb, hset, h]
  | modeMismatch => simp [exec_xform, execXform, hb, hset, h]

theorem exec_xform_outOfContract {e : Refusal} (hv : validate s.desc = .noError)
    (hp : precondition s.cfg s.desc = some e) : exec .xform s = .refused e := by
  have hset := (Bank.allSet_iff s.written).2 hw
  simp [exec_xform, execXform, hb, hset, hv, hp]

end Accepted

theorem State.StartsJob.exec_xform_eq {s : State} (h : s.StartsJob) : exec .xform s = .next s.startJob := by
  obtain ⟨hb, hw, hv, hp⟩ := h
  have hset := (Bank.allSet_iff s.written).2 hw
  simp [exec_xform, execXform, hb, hset, hv, hp]

/-- Outside BUSY the answer to XFORM does not depend on STATUS: every branch overwrites it or refuses
(40_transform_command.md R101). -/
theorem exec_xform_status_congr {s : State} (hb : s.state ≠ .busy) {st : JobState} (hst : st ≠ .busy) (e : ErrCode) :
    exec .xform { s with state := st, err := e } = exec .xform s := by
  rcases execXform_cases s with ⟨h, -⟩ | ⟨-, hw, -⟩ | ⟨-, hw, hv, -⟩ | ⟨r, -, hw, hv, hp, -⟩ | ⟨-, hw, hv, hp, -⟩
  · exact absurd h hb
  · have hun := (Bank.allSet_eq_false_iff _).1 hw
    exact Eq.trans (exec_xform_unwritten hst hun) (exec_xform_unwritten hb hun).symm
  · have hall := (Bank.allSet_iff _).1 hw
    exact Eq.trans (exec_xform_invalid hst hall hv) (exec_xform_invalid hb hall hv).symm
  · have hall := (Bank.allSet_iff _).1 hw
    exact Eq.trans (exec_xform_outOfContract (s := { s with state := st, err := e }) hst hall hv hp)
      (exec_xform_outOfContract hb hall hv hp).symm
  · have hall := (Bank.allSet_iff _).1 hw
    exact Eq.trans (State.StartsJob.exec_xform_eq ⟨hst, hall, hv, hp⟩)
      (State.StartsJob.exec_xform_eq ⟨hb, hall, hv, hp⟩).symm

/-- Settles O17: by the equation for each branch, in the order of the rule. -/
theorem xformAcceptance : Obligations.XformAcceptance := by
  intro s
  refine ⟨exec_xform_busy, fun hb => ⟨exec_xform_unwritten hb, fun hw => ⟨exec_xform_invalid hb hw,
    fun e => exec_xform_outOfContract hb hw, fun hv hp => ?starts⟩, fun st e hst => exec_xform_status_congr hb hst e⟩⟩
  case starts => exact ⟨_, State.StartsJob.exec_xform_eq ⟨hb, hw, hv, hp⟩, rfl, rfl⟩

end Sys2Proof.Machine
end

section
/-! PROOFS. The validation on unsigned words (40_transform_command.md R102; 60_exceptions.md R186 to R190). -/

namespace Sys2Proof.Machine

/-! ### The three checks -/

theorem v1_iff (d : Descriptor) : v1 d = true ↔ d.tableChannels ≠ 3#32 ∧ d.tableChannels ≠ 4#32 := by
  simp only [v1, Bool.and_eq_true, bne_iff_ne, ne_eq, ← BitVec.toNat_inj]
  rfl

theorem v2_iff (d : Descriptor) :
    v2 d = true ↔
      d.inType ≠ 0#32 ∨ d.outType ≠ 0#32 ∨ d.inBands < 3#32 ∨ d.outBands < d.tableChannels := by
  simp only [v2, Bool.or_eq_true, bne_iff_ne, decide_eq_true_eq, or_assoc]
  rfl

theorem v3_iff (d : Descriptor) :
    v3 d = true ↔ d.tableChannels < d.outBands ∧ d.inBands < d.outBands := by
  simp only [v3, Bool.and_eq_true, decide_eq_true_eq]
  rfl

/-! ### The first check that fires decides -/

section Order

variable {d : Descriptor}

theorem validate_of_v1 (h1 : v1 d = true) : validate d = .invalidArgument := by
  rw [validate, if_pos h1]

theorem validate_of_v2 (h1 : ¬ v1 d = true) (h2 : v2 d = true) : validate d = .modeMismatch := by
  rw [validate, if_neg h1, if_pos h2]

theorem validate_of_v3 (h1 : ¬ v1 d = true) (h2 : ¬ v2 d = true) (h3 : v3 d = true) :
    validate d = .modeMismatch := by
  rw [validate, if_neg h1, if_neg h2, if_pos h3]

theorem validate_of_none (h1 : ¬ v1 d = true) (h2 : ¬ v2 d = true) (h3 : ¬ v3 d = true) :
    validate d = .noError := by
  rw [validate, if_neg h1, if_neg h2, if_neg h3]

end Order

/-- The checks look at five registers. -/
theorem validate_congr {d d' : Descriptor} (htc : d.tableChannels = d'.tableChannels) (hit : d.inType = d'.inType)
    (hot : d.outType = d'.outType) (hib : d.inBands = d'.inBands) (hob : d.outBands = d'.outBands) :
    validate d = validate d' := by
  have h1 : v1 d = v1 d' := Bool.eq_iff_iff.2 (by rw [v1_iff, v1_iff, htc])
  have h2 : v2 d = v2 d' := Bool.eq_iff_iff.2 (by rw [v2_iff, v2_iff, htc, hit, hot, hib, hob])
  have h3 : v3 d = v3 d' := Bool.eq_iff_iff.2 (by rw [v3_iff, v3_iff, htc, hib, hob])
  rw [validate, validate, h1, h2, h3]

/-! ### What the decision does -/

/-- An XFORM whose validation raises `e` enters FAILED with `e` and changes nothing else. -/
theorem exec_xform_of_validate {s : State} {e : ErrCode} (hb : s.state ≠ .busy) (hw : ∀ r, s.written.get r = true)
    (he : e ≠ .noError) (hv : validate s.desc = e) :
    exec .xform s = .next { s with state := .failed, err := e } := by
  subst hv
  exact exec_xform_invalid hb hw he

/-- A validated XFORM never fails: a next state has started its job. -/
theorem exec_xform_next_of_valid {s t : State} (hb : s.state ≠ .busy) (hv : validate s.desc = .noError)
    (h : exec .xform s = .next t) : t.state = .busy ∧ t.err = .noError := by
  rw [exec_xform] at h
  rcases execXform_cases s with ⟨hbusy, -⟩ | ⟨-, -, e⟩ | ⟨-, -, hne, -⟩ | ⟨r, -, -, -, -, e⟩ | ⟨-, -, -, -, e⟩
  · exact absurd hbusy hb
  · cases e.symm.trans h
  · exact absurd hv hne
  · cases e.symm.trans h
  · cases e.symm.trans h
    exact ⟨s.startJob_state, s.startJob_err⟩

/-- Settles O18: each check in words, then the rule for the code that the first check to fire gives. -/
theorem validationDecidesTheError : Obligations.ValidationDecidesTheError := by
  refine ⟨fun s hb hw => ⟨fun h1 => ?v1, fun htc => ?rest⟩, fun d d' => validate_congr⟩
  case v1 => exact exec_xform_of_validate hb hw nofun (validate_of_v1 ((v1_iff _).2 h1))
  case rest =>
    have h1 : ¬ v1 s.desc = true := by
      rw [v1_iff]
      tauto
    refine ⟨fun h2 => ?v2, fun hit hot hib hob => ?rest⟩
    case v2 => exact exec_xform_of_validate hb hw nofun (validate_of_v2 h1 ((v2_iff _).2 h2))
    case rest =>
      have h2 : ¬ v2 s.desc = true := by
        rw [v2_iff]
        simp [hit, hot, BitVec.not_lt.2 hib, BitVec.not_lt.2 hob]
      refine ⟨fun h3 => ?v3, fun h3 t => ?none⟩
      case v3 => exact exec_xform_of_validate hb hw nofun (validate_of_v3 h1 h2 ((v3_iff _).2 h3))
      case none => exact exec_xform_next_of_valid hb (validate_of_none h1 h2 (mt (v3_iff _).1 h3))

end Sys2Proof.Machine
end

section
/-! PROOFS. The preconditions P2 to P5 as the spec words them, and that they decide whether a validated XFORM runs
(40_transform_command.md R104; 20_memory.md R60, R61, R62). -/

namespace Sys2Proof.Machine

/-! ### The no-hazard condition -/

theorem noHazard_of_empty {d : Descriptor} (h : d.W = 0 ∨ d.H = 0) : NoHazard d := by
  intro y x v u hy hx
  omega

/-- Two images in one place meet the no-hazard condition: both images' bytes of a pixel lie in the pixel's own
stride (20_memory.md R62). -/
theorem noHazard_of_aliasesExactly {d : Descriptor} (h : aliasesExactly d = true) : NoHazard d := by
  simp only [aliasesExactly, Bool.and_eq_true, beq_iff_eq, decide_eq_true_eq] at h
  obtain ⟨⟨⟨⟨⟨hbase, hps⟩, hrs⟩, hin⟩, hout⟩, hrow⟩ := h
  intro y x v u _ hx _ hu hne
  have hapart := pixels_apart _ _ _ y x v u hrow hx hu hne
  simp only [sampleAddr, ← hbase, ← hps, ← hrs]
  constructor <;> intro c b hc hb <;> omega

/-- Regions that are disjoint, with output pixels that do not overlap one another, meet the no-hazard condition
(20_memory.md R62). -/
theorem noHazard_of_regionsDisjoint {d : Descriptor} (h : regionsDisjoint d = true) : NoHazard d := by
  simp only [regionsDisjoint, Bool.and_eq_true, Bool.or_eq_true, decide_eq_true_eq] at h
  obtain ⟨⟨hps, hrow⟩, hregions⟩ := h
  intro y x v u hy hx hv hu hne
  constructor
  · intro c b hc hb
    have hlastOut := sampleAddr_le_lastAddr d .output y x c hy hx hc
    have hlastIn := sampleAddr_le_lastAddr d .input v u b hv hu hb
    have hbaseOut : d.base .output ≤ sampleAddr d .output y x c := by unfold sampleAddr; omega
    have hbaseIn : d.base .input ≤ sampleAddr d .input v u b := by unfold sampleAddr; omega
    omega
  · intro c b hc hb
    have hapart := pixels_apart _ _ _ y x v u hrow hx hu hne
    unfold sampleAddr
    omega

/-- P5 as the spec words it, for a job that writes something: the shapes that are recognised first meet it. -/
theorem p5_iff {d : Descriptor} (htc : 0 < d.tc) : p5 d = true ↔ NoHazard d := by
  simp only [p5, Bool.or_eq_true, beq_iff_eq, noHazardAll_iff d htc]
  constructor
  · rintro (((hempty | hsame) | hdisjoint) | h)
    · exact noHazard_of_empty hempty
    · exact noHazard_of_aliasesExactly hsame
    · exact noHazard_of_regionsDisjoint hdisjoint
    · exact h
  · exact .inr

/-! ### The contract -/

/-- A validated descriptor meets P2 to P5 exactly when it is in contract as the spec words it. -/
theorem precondition_eq_none_iff (c : Cfg) {d : Descriptor} (hv : validate d = .noError) :
    precondition c d = none ↔
      GridSizesLegal d ∧ d.tc * d.size .axis0 * d.size .axis1 * d.size .axis2 ≤ c.tblCapacity ∧
        AddressesInside c d ∧ NoHazard d := by
  have htc : 0 < d.tc := by
    have := tc_of_validate hv
    omega
  rw [precondition_eq_none, p2_iff, p3_iff, p4_iff, p5_iff htc, tableLen]

/-- P2 to P5 have refusals of their own, none of them P1's. -/
theorem precondition_ne_descriptorUnwritten (c : Cfg) (d : Descriptor) :
    precondition c d ≠ some .descriptorUnwritten := by
  unfold precondition
  split_ifs <;> simp

theorem exec_xform_eq_unwritten_iff {s : State} (hb : s.state ≠ .busy) :
    exec .xform s = .refused .descriptorUnwritten ↔ ∃ r, s.written.get r = false := by
  refine ⟨fun h => ?_, exec_xform_unwritten hb⟩
  rw [exec_xform] at h
  rcases execXform_cases s with ⟨-, e⟩ | ⟨-, hw, -⟩ | ⟨-, -, -, e⟩ | ⟨r, -, -, -, hp, e⟩ | ⟨-, -, -, -, e⟩
  · cases e.symm.trans h
  · exact (Bank.allSet_eq_false_iff _).1 hw
  · cases e.symm.trans h
  · cases e.symm.trans h
    exact absurd hp (precondition_ne_descriptorUnwritten _ _)
  · cases e.symm.trans h

/-- Settles O20: P2 to P5 are the conditions of the spec, and they decide between the start and a refusal. -/
theorem xformRunsExactlyWhenInContract : Obligations.XformRunsExactlyWhenInContract := by
  refine fun s hb => ⟨exec_xform_eq_unwritten_iff hb, fun hw hv => ?_⟩
  rw [← precondition_eq_none_iff s.cfg hv]
  refine ⟨fun hp => ⟨_, State.StartsJob.exec_xform_eq ⟨hb, hw, hv, hp⟩⟩, fun hp => ?_⟩
  obtain ⟨e, he⟩ := Option.ne_none_iff_exists'.1 hp
  exact ⟨e, exec_xform_outOfContract hb hw hv he⟩

end Sys2Proof.Machine
end

section
/-! PROOFS. A pixel's samples: what they depend on, and that a pixel step writes them (40_transform_command.md R107 to
R109). -/

namespace Sys2Proof.Machine

/-! ### What a sample depends on -/

/-- The blends of a channel use the corner values at the corner bits 0 and 1 only. -/
theorem blends_congr (c : Cfg) {C C' : Nat → Nat → Nat → Int} (f0 f1 f2 : Nat)
    (h : ∀ di dj dk, di ≤ 1 → dj ≤ 1 → dk ≤ 1 → C' di dj dk = C di dj dk) :
    blends c C' f0 f1 f2 = blends c C f0 f1 f2 := by
  simp only [blends, h, Nat.zero_le, le_refl]

section SameShape

variable {L L' : Descriptor} (htc : L'.tc = L.tc) (hsize : ∀ a, L'.size a = L.size a)

include htc hsize

theorem baseOffset_congr (i j k : Nat) : baseOffset L' i j k = baseOffset L i j k := by
  simp only [baseOffset, htc, hsize]

theorem cornerOffset_congr (idx di dj dk : Nat) : cornerOffset L' idx di dj dk = cornerOffset L idx di dj dk := by
  simp only [cornerOffset, htc, hsize]

/-- A sample depends on the table through its eight gathered elements, and on the descriptor through the channels and
the sizes. -/
theorem pixelOut_congr (c : Cfg) {tbl tbl' : List (Nat × Elem)} {r g b : Byte} {ch idx : Nat}
    (hidx : idx = baseOffset L (scaleAxis c (L.size .axis0) r).index (scaleAxis c (L.size .axis1) g).index
      (scaleAxis c (L.size .axis2) b).index)
    (htbl : ∀ di dj dk, di ≤ 1 → dj ≤ 1 → dk ≤ 1 →
      Memory.read tbl' (cornerOffset L idx di dj dk + ch) = Memory.read tbl (cornerOffset L idx di dj dk + ch)) :
    pixelOut c L' tbl' r g b ch = pixelOut c L tbl r g b ch := by
  subst hidx
  simp only [pixelOut, pixelBlends, hsize, baseOffset_congr htc hsize]
  rw [blends_congr]
  intro di dj dk hi hj hk
  simp only [corner, tableElem, cornerOffset_congr htc hsize, htbl di dj dk hi hj hk]

end SameShape

/-- Settles O41: the composition is the definition of a sample; what each of its parts depends on gives the rest. -/
theorem sampleDependsOnlyOnItsPixel : Obligations.SampleDependsOnlyOnItsPixel := by
  refine ⟨fun c L tbl r g b ch => rfl, ?_⟩
  intro c L L' tbl tbl' pix pix' y x y' x' ch idx htc hsize hpix hidx htbl
  unfold pixelResult
  rw [hpix 0 (by decide), hpix 1 (by decide), hpix 2 (by decide)]
  exact pixelOut_congr htc hsize c hidx htbl

/-! ### The pixel step -/

/-- A sampler move on an unfinished row is the pixel step of that row's next pixel (40_transform_command.md R106). -/
theorem step_sampler_row {s : State} {j : Job} {y x : Nat} {rest : List Move} (hb : s.state = .busy)
    (hj : s.job = some j) (hc : j.cur[y]? = some x) (hx : x < j.latched.W)
    (h : s.moves = .sampler (some y) :: rest) : step s = .next ((s.withMoves rest).pixelStep j y x) := by
  calc step s = .next ((s.withMoves rest).samplerStep (some y)) := step_move s _ rest h
    _ = .next ((s.withMoves rest).pixelStep j y x) := by rw [State.samplerStep_some (s := s.withMoves rest) hb hj hc hx]

/-- After the pixel step of an undisturbed job each output band of its pixel holds the band's result. -/
theorem State.read_pixelStep_band {s : State} {j : Job} {ch : Nat} (hwf : Memory.wf s.pix = true)
    (hfree : j.disturbed = false) (hch : ch < j.latched.tc) (y x : Nat) :
    Memory.read (s.pixelStep j y x).pix (sampleAddr j.latched .output y x ch) =
      pixelResult s.cfg j.latched s.pix s.tbl y x ch := by
  rw [State.pixelStep_pix, read_writeBands_band _ _ _ _ _ _ hwf ch (List.mem_range.2 hch),
    s.pixelByte_undisturbed j hfree]

/-- Settles O42: the sampler's move is the pixel step, whose bands hold their results at the addresses of
20_memory.md R51. -/
theorem pixelStepWritesItsPixel : Obligations.PixelStepWritesItsPixel := by
  intro s j y x rest hwf hb hj hfree hc hx h
  exact ⟨_, step_sampler_row hb hj hc hx h,
    fun ch hch => State.read_pixelStep_band (s := s.withMoves rest) hwf hfree hch y x⟩

end Sys2Proof.Machine
end

section
/-! PROOFS. The coordinate scaler on one axis: the scale constant, the coordinate, its integer part and its fraction
(41_coordinate_scaler.md R131 to R136). -/

namespace Sys2Proof.Machine

/-! ### The scale constant -/

section LegalSize

variable {size : Nat} (hlo : 2 ≤ size) (hhi : size ≤ 65)

include hlo hhi

/-- 255 is odd, so a power of two leaves a remainder of the `size - 1 < 255` cells. -/
theorem not_dvd_cells_mul_two_pow (n : Nat) : ¬ 255 ∣ (size - 1) * 2 ^ n := by
  intro h
  have hodd : Nat.Coprime 255 (2 ^ n) := Nat.Coprime.pow_right n (by decide)
  have := Nat.le_of_dvd (by omega) (hodd.dvd_of_dvd_mul_right h)
  omega

/-- The conversion drops a fraction that is never 0 (R131). -/
theorem scaleConst_bounds (c : Cfg) :
    255 * scaleConst c size < (size - 1) * 2 ^ c.scaleBits ∧
      (size - 1) * 2 ^ c.scaleBits < 255 * (scaleConst c size + 1) := by
  have hinexact := not_dvd_cells_mul_two_pow hlo hhi c.scaleBits
  unfold scaleConst
  omega

/-- Between the constants of sizes 2 and 65. -/
theorem scaleConst_range (c : Cfg) :
    2 ^ c.scaleBits / 255 ≤ scaleConst c size ∧ scaleConst c size ≤ 64 * 2 ^ c.scaleBits / 255 :=
  ⟨Nat.div_le_div_right (Nat.le_mul_of_pos_left _ (by omega)),
    Nat.div_le_div_right (Nat.mul_le_mul_right _ (by omega))⟩

end LegalSize

/-- With 8 fraction bits or more the range of the constants lies strictly between 0 and half a cell. -/
theorem scaleConst_range_bounds {n : Nat} (hn : 8 ≤ n) : 1 ≤ 2 ^ n / 255 ∧ 64 * 2 ^ n / 255 < 2 ^ (n - 1) := by
  have hge : 2 ^ 8 ≤ 2 ^ n := Nat.pow_le_pow_right (by decide) hn
  have hhalf : 2 ^ n = 2 * 2 ^ (n - 1) := (mul_pow_sub_one (by omega) 2).symm
  omega

/-- Settles O24: the product is no multiple of 255, and the constant grows with the size. -/
theorem scaleConstantRoundsDown : Obligations.ScaleConstantRoundsDown := by
  refine ⟨fun c size _ hlo hhi => ?_, by decide⟩
  obtain ⟨hbelow, habove⟩ := scaleConst_bounds hlo hhi c
  refine ⟨hbelow, habove, fun h8 => ?_⟩
  obtain ⟨hmin, hmax⟩ := scaleConst_range hlo hhi c
  obtain ⟨hpos, hhalf⟩ := scaleConst_range_bounds h8
  exact ⟨hpos, hmin, hmax, hhalf⟩

/-! ### The grid index -/

theorem scaleAxis_index (c : Cfg) (size : Nat) (v : Byte) :
    (scaleAxis c size v).index = v.toNat * scaleConst c size / 2 ^ c.scaleBits := gridIndex_eq_div _ _

/-- Input 255 stays short of the last node, since the constant is rounded down (R133). -/
theorem idxFixed_lt {size : Nat} (hlo : 2 ≤ size) (hhi : size ≤ 65) (c : Cfg) (v : Byte) :
    idxFixed c size v < (size - 1) * 2 ^ c.scaleBits :=
  calc v.toNat * scaleConst c size ≤ 255 * scaleConst c size := Nat.mul_le_mul_right _ (Nat.le_of_lt_succ v.isLt)
    _ < (size - 1) * 2 ^ c.scaleBits := (scaleConst_bounds hlo hhi c).1

/-- The index names a cell of the axis. -/
theorem scaleAxis_index_lt {size : Nat} (hlo : 2 ≤ size) (hhi : size ≤ 65) (c : Cfg) (v : Byte) :
    (scaleAxis c size v).index < size - 1 := by
  rw [scaleAxis_index]
  exact (Nat.div_lt_iff_lt_mul (by positivity)).2 (idxFixed_lt hlo hhi c v)

/-- Settles O26: the index is one of the `size - 1` cells. -/
theorem gridIndexLeavesAnUpperNode : Obligations.GridIndexLeavesAnUpperNode := by
  intro c size v _ hlo hhi
  have hcell := scaleAxis_index_lt hlo hhi c v
  exact ⟨scaleAxis_index c size v, by omega, by omega, by omega⟩

/-! ### The fraction and its complement -/

theorem scaleAxis_frac (c : Cfg) (size : Nat) (v : Byte) : (scaleAxis c size v).frac =
    v.toNat * scaleConst c size % 2 ^ c.scaleBits / 2 ^ (c.scaleBits - c.shiftBits) := fracWeight_eq_div _ _

@[simp] theorem scaleAxis_frac_zero (c : Cfg) (size : Nat) : (scaleAxis c size 0#8).frac = 0 := by
  simp [scaleAxis_frac]

/-- SHIFT_BITS of SCALE_BITS bits remain (K3). -/
theorem fracWeight_lt {c : Cfg} (hk3 : c.shiftBits ≤ c.scaleBits) (f : Nat) : fracWeight c f < 2 ^ c.shiftBits := by
  rw [fracWeight_eq_div]
  apply Nat.div_lt_of_lt_mul
  rw [pow_sub_mul_pow 2 hk3]
  exact Nat.mod_lt _ (by positivity)

/-- The exact coordinate is a multiple of a 255th of a cell, and the constant's rounding loses a part of it, at most 254
units. A fraction 0 would put the exact coordinate above a node by that loss and the dropped bits: by something, but
under `hfine` by less than a 255th of a cell. -/
theorem scaleAxis_frac_pos {c : Cfg} {size : Nat} {v : Byte} (hlo : 2 ≤ size) (hhi : size ≤ 65)
    (hfine : 255 * (254 + 2 ^ (c.scaleBits - c.shiftBits)) ≤ 2 ^ c.scaleBits) (hv : 0 < v.toNat) :
    0 < (scaleAxis c size v).frac := by
  obtain ⟨hbelow, habove⟩ := scaleConst_bounds hlo hhi c
  rw [scaleAxis_frac]
  refine Nat.div_pos (not_lt.1 fun hrem => ?_) (by positivity)
  have hsplit := Nat.div_add_mod (v.toNat * scaleConst c size) (2 ^ c.scaleBits)
  generalize v.toNat * scaleConst c size / 2 ^ c.scaleBits = node at hsplit
  have habovenode : 255 * (v.toNat * scaleConst c size) < 2 ^ c.scaleBits * (v.toNat * (size - 1)) := by
    calc 255 * (v.toNat * scaleConst c size) = v.toNat * (255 * scaleConst c size) := by ring
      _ < v.toNat * ((size - 1) * 2 ^ c.scaleBits) := Nat.mul_lt_mul_of_pos_left hbelow hv
      _ = 2 ^ c.scaleBits * (v.toNat * (size - 1)) := by ring
  have hlost : 2 ^ c.scaleBits * (v.toNat * (size - 1)) ≤ 255 * (v.toNat * scaleConst c size) + 254 * v.toNat := by
    calc 2 ^ c.scaleBits * (v.toNat * (size - 1)) = v.toNat * ((size - 1) * 2 ^ c.scaleBits) := by ring
      _ ≤ v.toNat * (255 * scaleConst c size + 254) := Nat.mul_le_mul_left _ (by omega)
      _ = 255 * (v.toNat * scaleConst c size) + 254 * v.toNat := by ring
  have hnext : 255 * node + 1 ≤ v.toNat * (size - 1) := by
    refine lt_of_mul_lt_mul_left (a := 2 ^ c.scaleBits) ?_ (Nat.zero_le _)
    rw [Nat.mul_left_comm]
    omega
  have hgap := Nat.mul_le_mul_left (2 ^ c.scaleBits) hnext
  rw [Nat.mul_add, Nat.mul_left_comm] at hgap
  have := v.isLt
  omega

/-- Settles O27: what the mask and the shift leave, and the gap above each node at the default configuration. -/
theorem fractionIsTheTopBits : Obligations.FractionIsTheTopBits := by
  refine ⟨fun c size v hc _ _ => ?_, fun size v hlo hhi => ⟨fun hfrac => ?_, ?_⟩⟩
  · obtain ⟨-, -, hk3, -⟩ := (Cfg.wellFormed_iff c).1 hc
    exact ⟨scaleAxis_frac c size v, Nat.le_sub_one_of_lt (fracWeight_lt hk3 _), scaleAxis_frac_zero c size⟩
  · by_contra hv
    have hpos : 0 < v.toNat := Nat.pos_of_ne_zero fun h => hv (BitVec.eq_of_toNat_eq h)
    exact (scaleAxis_frac_pos hlo hhi (by decide) hpos).ne' hfrac
  · rintro rfl
    exact scaleAxis_frac_zero _ _

/-- A weight, its complement and one make the unit. -/
theorem add_compWeight_add_one {c : Cfg} {f : Nat} (hf : f ≤ 2 ^ c.shiftBits - 1) :
    f + compWeight c f + 1 = 2 ^ c.shiftBits := by
  have hunit : 1 ≤ 2 ^ c.shiftBits := Nat.one_le_two_pow
  unfold compWeight weightSum
  omega

/-- Settles O28: the sum gives the bound, as SHIFT_BITS is at most 15 (K2). -/
theorem weightsSumToOneLessThanTheUnit : Obligations.WeightsSumToOneLessThanTheUnit := by
  intro c f hc hf
  obtain ⟨-, ⟨-, hk2⟩, -⟩ := (Cfg.wellFormed_iff c).1 hc
  have hsum := add_compWeight_add_one hf
  have hunit : 2 ^ c.shiftBits ≤ 2 ^ 15 := Nat.pow_le_pow_right (by decide) hk2
  exact ⟨by omega, hsum, by omega⟩

end Sys2Proof.Machine
end

section
/-! PROOFS. The flat base offset: the range of a cell's lowest node (41_coordinate_scaler.md R137). -/

namespace Sys2Proof.Machine

/-- The number of a node of an `m` by `n` by `p` grid, axis 0 fastest, is below the number of nodes. -/
theorem gridNode_lt {i j k m n p : Nat} (hi : i < m) (hj : j < n) (hk : k < p) :
    i + j * m + k * m * n < m * n * p := by
  have hplane : i + j * m < m * n := by
    calc i + j * m < (j + 1) * m := by rw [Nat.succ_mul]; omega
      _ ≤ m * n := Nat.mul_comm m n ▸ Nat.mul_le_mul_right m hj
  calc i + j * m + k * m * n < (k + 1) * (m * n) := by rw [Nat.succ_mul, ← Nat.mul_assoc]; omega
    _ ≤ m * n * p := Nat.mul_comm p (m * n) ▸ Nat.mul_le_mul_right _ hk

/-- The upper node of a cell is `1 + m + m*n` further than its lowest node, and still in the grid. -/
theorem gridCell_le {i j k m n p : Nat} (hi : i + 1 < m) (hj : j + 1 < n) (hk : k + 1 < p) :
    i + j * m + k * m * n ≤ m * n * p - 1 - 1 - m - m * n := by
  have hupper := gridNode_lt hi hj hk
  rw [Nat.succ_mul, Nat.succ_mul, Nat.add_mul] at hupper
  omega

theorem baseOffset_eq_nodeOffset (L : Descriptor) (i j k : Nat) : baseOffset L i j k = nodeOffset L i j k 0 :=
  (Nat.zero_add _).symm

/-- A legal grid has at most 65^3 nodes (P2). -/
theorem GridSizesLegal.nodes_le {L : Descriptor} (h : GridSizesLegal L) :
    L.size .axis0 * L.size .axis1 * L.size .axis2 ≤ 65 * 65 * 65 :=
  Nat.mul_le_mul (Nat.mul_le_mul (h .axis0).2 (h .axis1).2) (h .axis2).2

/-- Settles O29: the cell's upper node is in the grid, and the largest table has `4 * 65^3` elements. -/
theorem baseOffsetOfTheCell : Obligations.BaseOffsetOfTheCell := by
  intro L i j k htc hg hi hj hk
  have hupper {a : Axis} {n : Nat} (h : n ≤ L.size a - 2) : n + 1 < L.size a := by
    have := (hg a).1
    omega
  have hcell := gridCell_le (hupper hi) (hupper hj) (hupper hk)
  refine ⟨rfl, baseOffset_eq_nodeOffset L i j k, Nat.mul_le_mul_left _ hcell, ?_⟩
  have hnode : i + j * L.size .axis0 + k * L.size .axis0 * L.size .axis1 ≤ 65 * 65 * 65 := by
    have := hg.nodes_le
    omega
  have htc4 : L.tc ≤ 4 := by omega
  calc baseOffset L i j k ≤ 4 * (65 * 65 * 65) := Nat.mul_le_mul htc4 hnode
    _ < 2 ^ 21 := by decide

end Sys2Proof.Machine
end

section
/-! PROOFS. The trilinear interpolator: the gathered corners, the blend primitive and the order of the blends
(42_trilinear_interpolator.md R150 to R155). -/

namespace Sys2Proof.Machine

/-! ### The blend primitive -/

/-- The two weights are not negative and sum to `2^SHIFT_BITS - 1`, so the sum keeps to `2^SHIFT_BITS - 1` times any
range of the blended values. -/
theorem blendSum_range {c : Cfg} {a b lo hi : Int} {f : Nat} (hf : f ≤ 2 ^ c.shiftBits - 1)
    (ha : lo ≤ a ∧ a ≤ hi) (hb : lo ≤ b ∧ b ≤ hi) :
    lo * (2 ^ c.shiftBits - 1) ≤ blendSum c a b f ∧ blendSum c a b f ≤ hi * (2 ^ c.shiftBits - 1) := by
  have hweights : (2 ^ c.shiftBits - 1 : Int) = compWeight c f + f := by
    rw [compWeight_cast c f hf]
    ring
  rw [hweights, mul_add, mul_add]
  exact ⟨add_le_add (mul_le_mul_of_nonneg_right ha.1 (Int.natCast_nonneg _))
      (mul_le_mul_of_nonneg_right hb.1 (Int.natCast_nonneg _)),
    add_le_add (mul_le_mul_of_nonneg_right ha.2 (Int.natCast_nonneg _))
      (mul_le_mul_of_nonneg_right hb.2 (Int.natCast_nonneg _))⟩

/-- SHIFT_BITS is from 1 to 15 (K2). -/
theorem Cfg.unit_range {c : Cfg} (hc : c.wellFormed = true) :
    2 ≤ (2 ^ c.shiftBits : Int) ∧ (2 ^ c.shiftBits : Int) ≤ 32768 := by
  obtain ⟨-, ⟨hmin, hmax⟩, -⟩ := (Cfg.wellFormed_iff c).1 hc
  have hlo := pow_le_pow_right₀ (one_le_two (α := Int)) hmin
  have hhi := pow_le_pow_right₀ (one_le_two (α := Int)) hmax
  exact ⟨by simpa using hlo, hhi.trans (by decide)⟩

section Int16

variable {c : Cfg} {a b : Int} {f : Nat} (hc : c.wellFormed = true) (hf : f ≤ 2 ^ c.shiftBits - 1)
  (ha : -32768 ≤ a ∧ a ≤ 32767) (hb : -32768 ≤ b ∧ b ≤ 32767)

include hc hf ha hb

/-- The sum of a blend of INT16 values is an INT32. -/
theorem blendSum_int32 : -2147483648 ≤ blendSum c a b f ∧ blendSum c a b f ≤ 2147483647 := by
  obtain ⟨hlo, hhi⟩ := blendSum_range hf ha hb
  have hunit := Cfg.unit_range hc
  constructor <;> linarith

/-- The weights fall short of the unit by one, so a blend of INT16 values reaches neither end of INT16 (R159). -/
theorem lerp_range : -32767 ≤ lerp c a b f ∧ lerp c a b f ≤ 32766 := by
  obtain ⟨hlo, hhi⟩ := blendSum_range hf ha hb
  have hunit := Cfg.unit_range hc
  exact ⟨le_sar_iff.2 (by linarith), Int.lt_add_one_iff.1 (sar_lt_iff.2 (by linarith))⟩

end Int16

/-- Settles O32: the shift is the floor, and both ranges follow from that of the sum. -/
theorem lerpIsTheFloorOfTheBlend : Obligations.LerpIsTheFloorOfTheBlend := by
  intro c a b f hc ha ha' hb hb' hf
  rw [← blendSum_eq c a b f hf]
  obtain ⟨hbelow, habove⟩ := sar_floor (blendSum c a b f) c.shiftBits
  obtain ⟨hmin, hmax⟩ := blendSum_int32 hc hf ⟨ha, ha'⟩ ⟨hb, hb'⟩
  obtain ⟨hlo, hhi⟩ := lerp_range hc hf ⟨ha, ha'⟩ ⟨hb, hb'⟩
  exact ⟨hbelow, habove, hmin, hmax, by omega, by omega⟩

/-! ### The corners -/

/-- From the cell's lowest node, `di`, `dj` and `dk` steps along the axes lead to channel 0 of the node that many steps
further. -/
theorem cornerOffset_baseOffset (L : Descriptor) (i j k di dj dk : Nat) :
    cornerOffset L (baseOffset L i j k) di dj dk = nodeOffset L (i + di) (j + dj) (k + dk) 0 := by
  simp only [cornerOffset, baseOffset, nodeOffset]
  ring

/-- Settles O30: each corner bit adds its axis's stride or nothing. -/
theorem cornersAreTheCellsNodes : Obligations.CornersAreTheCellsNodes := by
  refine ⟨fun L i j k di dj dk _ _ _ => cornerOffset_baseOffset L i j k di dj dk, fun L idx => ?_⟩
  unfold cornerOffset
  and_intros <;> ring

/-! ### The order of the blends -/

/-- The last sum of a channel blends `left` and `right` with the weights of axis 2, and is not shifted (R155). -/
theorem blends_acc (c : Cfg) (C : Nat → Nat → Nat → Int) (f0 f1 f2 : Nat) :
    (blends c C f0 f1 f2).acc = blendSum c (blends c C f0 f1 f2).left (blends c C f0 f1 f2).right f2 := rfl

/-- Settles O34: the six blends are as the model defines them, and the last sum's weights are `frac` and its
complement. -/
theorem blendsRunAxisByAxis : Obligations.BlendsRunAxisByAxis := by
  intro c C f0 f1 f2
  refine ⟨rfl, rfl, rfl, rfl, rfl, rfl, ?_⟩
  rw [blends_acc, blendSum, compWeight, weightSum]

end Sys2Proof.Machine
end

section
/-! PROOFS. The rounding clipper: rounding to nearest and saturation (43_rounding_clipper.md R170 to R172). -/

namespace Sys2Proof.Machine

/-! ### The rounding -/

/-- The bias is half of the unit discarded: PRECISION_ROUNDING is half of `2^PRECISION_BITS`, since PRECISION_BITS is
not 0 (K1). -/
theorem two_mul_roundingBias {c : Cfg} (hc : c.wellFormed = true) :
    2 * roundingBias c = 2 ^ (c.precisionBits + c.shiftBits) := by
  obtain ⟨⟨hk1, -⟩, -⟩ := (Cfg.wellFormed_iff c).1 hc
  calc 2 * (2 ^ (c.precisionBits - 1) * 2 ^ c.shiftBits) = 2 * 2 ^ (c.precisionBits - 1) * 2 ^ c.shiftBits :=
        (Nat.mul_assoc ..).symm
    _ = 2 ^ c.precisionBits * 2 ^ c.shiftBits := by rw [mul_pow_sub_one (by omega)]
    _ = 2 ^ (c.precisionBits + c.shiftBits) := (pow_add ..).symm

/-- Settles O36: the bias is half of the unit discarded, and the shift is the floor. -/
theorem roundingIsHalfUp : Obligations.RoundingIsHalfUp :=
  fun c acc hc => ⟨mod_cast two_mul_roundingBias hc, sar_floor (acc + roundingBias c) (c.precisionBits + c.shiftBits)⟩

/-! ### The saturation -/

theorem clip_of_neg {v : Int} (h : v < 0) : clip v = 0 := if_pos h

theorem clip_of_gt {v : Int} (h : 255 < v) : clip v = 255 := by
  rw [clip, if_neg (by omega), if_pos h]

theorem clip_of_mem {v : Int} (hlo : 0 ≤ v) (hhi : v ≤ 255) : clip v = v := by
  rw [clip, if_neg (by omega), if_neg (by omega)]

/-- Settles O37: the sample is the clipped value (`roundClip_toNat`), in each of the three cases of the clip. -/
theorem clipSaturates : Obligations.ClipSaturates := by
  intro c acc
  have hsample := roundClip_toNat c acc
  refine ⟨fun hneg => ?_, fun hgt => ?_, fun hlo hhi => ?_⟩
  · rw [clip_of_neg hneg] at hsample
    exact mod_cast hsample
  · rw [clip_of_gt hgt] at hsample
    exact mod_cast hsample
  · rw [clip_of_mem hlo hhi] at hsample
    exact hsample

end Sys2Proof.Machine
end

section
/-! PROOFS. The ranges of the scaler's addresses: the coordinate fits its word, and every corner a pixel gathers lies in
the job's table (41_coordinate_scaler.md R132, R133, R138). -/

namespace Sys2Proof.Machine

/-- Settles O25: the coordinate is below 64 cells, and a cell has at most 26 fraction bits (K4). -/
theorem coordinateFitsItsWord : Obligations.CoordinateFitsItsWord := by
  intro c size v hc hlo hhi
  obtain ⟨-, -, -, hk4, -⟩ := (Cfg.wellFormed_iff c).1 hc
  have hcells := idxFixed_lt hlo hhi c v
  have hword : idxFixed c size v < 2 ^ (c.scaleBits + 6) :=
    calc idxFixed c size v < (size - 1) * 2 ^ c.scaleBits := hcells
      _ ≤ 64 * 2 ^ c.scaleBits := Nat.mul_le_mul_right _ (by omega)
      _ = 2 ^ (c.scaleBits + 6) := by rw [pow_add]; exact Nat.mul_comm ..
  exact ⟨rfl, Nat.mul_le_mul_right _ (Nat.le_of_lt_succ v.isLt), hcells, hword,
    hword.trans_le (Nat.pow_le_pow_right (by decide) (by omega))⟩

/-- An element of a channel of a node of the grid is an element of the table. -/
theorem nodeOffset_lt_tableLen {L : Descriptor} {i j k ch : Nat} (hi : i < L.size .axis0) (hj : j < L.size .axis1)
    (hk : k < L.size .axis2) (hch : ch < L.tc) : nodeOffset L i j k ch < tableLen L := by
  have hnode := gridNode_lt hi hj hk
  calc nodeOffset L i j k ch < L.tc * (i + j * L.size .axis0 + k * L.size .axis0 * L.size .axis1 + 1) := by
        rw [nodeOffset, Nat.mul_succ]; omega
    _ ≤ L.tc * (L.size .axis0 * L.size .axis1 * L.size .axis2) := Nat.mul_le_mul_left _ hnode
    _ = tableLen L := by rw [tableLen]; ring

/-- The corner of a cell named by its corner bits is a node of the grid (41_coordinate_scaler.md R138). -/
theorem cornerOffset_lt_tableLen {L : Descriptor} (hg : GridSizesLegal L) (c : Cfg) (r g b : Byte)
    {di dj dk ch : Nat} (hi : di ≤ 1) (hj : dj ≤ 1) (hk : dk ≤ 1) (hch : ch < L.tc) :
    cornerOffset L
      (baseOffset L (scaleAxis c (L.size .axis0) r).index (scaleAxis c (L.size .axis1) g).index
        (scaleAxis c (L.size .axis2) b).index) di dj dk + ch < tableLen L := by
  have hnode (a : Axis) (v : Byte) {d : Nat} (hd : d ≤ 1) :
      (scaleAxis c (L.size a) v).index + d < L.size a := by
    have := scaleAxis_index_lt (hg a).1 (hg a).2 c v
    omega
  rw [cornerOffset_baseOffset, nodeOffset, Nat.zero_add, Nat.add_comm]
  exact nodeOffset_lt_tableLen (hnode .axis0 r hi) (hnode .axis1 g hj) (hnode .axis2 b hk) hch

/-- Settles O31: P2 puts every corner in the table, P3 the table in TBL. -/
theorem everyCornerIsInTheTable : Obligations.EveryCornerIsInTheTable := by
  intro c L r g b di dj dk ch _ _ hp hi hj hk hch
  obtain ⟨hp2, hp3, -, -⟩ := (precondition_eq_none c L).1 hp
  exact ⟨cornerOffset_lt_tableLen ((p2_iff L).1 hp2) c r g b hi hj hk hch, (p3_iff c L).1 hp3⟩

end Sys2Proof.Machine
end

section
/-! PROOFS. The invariant: it holds at reset and every step keeps it (10_state.md R37, R38). -/

namespace Sys2Proof.Machine

/-- The invariant of a state without a job, from its parts. -/
theorem State.Inv.of_noJob {s t : State} (h : s.Inv) (hc : t.cfg = s.cfg) (ht : t.tbl = s.tbl)
    (hwf : Memory.wf t.pix = true) (hin : Memory.below (2 ^ s.cfg.addrBits) t.pix = true)
    (he : t.err ≠ .noError ↔ t.state = .failed) (hb : t.state ≠ .busy) (hj : t.job = none) : t.Inv where
  cfgOk := hc ▸ h.cfgOk
  pixCanonical := hwf
  tblCanonical := ht ▸ h.tblCanonical
  pixInside := hc ▸ hin
  tblInside := ht ▸ hc ▸ h.tblInside
  errIffFailed := he
  jobIffBusy := by simp [hj, hb]
  jobOk := by simp [hj]

/-- Settles O47: at reset the memories are empty, STATUS is IDLE with no error, and no job runs. -/
theorem invariantAtReset : Obligations.InvariantAtReset where
  cfgOk := by decide
  pixCanonical := rfl
  tblCanonical := rfl
  pixInside := rfl
  tblInside := rfl
  errIffFailed := by decide
  jobIffBusy := by decide
  jobOk := nofun

/-- The invariant does not speak of the moves to come, the data returned and the model's counters. -/
theorem State.Inv.congr {s t : State} (h : s.Inv)
    (ht : t = { s with moves := t.moves, readData := t.readData, resets := t.resets, draws := t.draws }) : t.Inv := by
  rw [ht]
  exact { h with jobOk := fun j hj => (h.jobOk j hj).congr rfl rfl rfl rfl (fun a => by cases a <;> rfl) }

theorem State.Inv.withMoves {s : State} (h : s.Inv) (ms : List Move) : (s.withMoves ms).Inv := h.congr rfl

theorem State.Inv.poll {s : State} (h : s.Inv) : s.poll.Inv := h.congr (by rw [s.poll_frame])

/-! ### The commands -/

/-- A started job meets what is asked of a running job. -/
theorem State.StartsJob.jobInv {s : State} (h : s.StartsJob) (hc : s.cfg.wellFormed = true) :
    JobInv s.startJob { latched := s.desc, cur := List.replicate s.desc.H 0, disturbed := false } := by
  have hg := h.gridSizesLegal
  obtain ⟨-, hw, hv, hp⟩ := h
  exact {
    validated := hv
    preconditions := hp
    latchedIsDesc := rfl
    allWritten := (Bank.allSet_iff _).2 hw
    rows := List.length_replicate
    cursors := fun x hx => (List.eq_of_mem_replicate hx).trans_le (Nat.zero_le _)
    scales := ⟨rfl, s.startJob_scale hc hg⟩ }

theorem State.Inv.startJob {s : State} (h : s.Inv) (hs : s.StartsJob) : s.startJob.Inv :=
  { h with
    errIffFailed := by simp
    jobIffBusy := by simp
    jobOk := fun j hj => by
      cases hj
      exact hs.jobInv h.cfgOk }

theorem State.Inv.exec {i : Instr} {s t : State} (h : s.Inv) (he : exec i s = .next t) : t.Inv := by
  rcases exec_next he with rfl | ⟨-, hb, hv, rfl⟩ | ⟨-, hb, hw, hv, hp, rfl⟩ | ⟨-, hd, rfl⟩
  · exact h
  · exact h.of_noJob rfl rfl h.pixCanonical h.pixInside (by simp [hv]) (by simp) (h.noJob hb)
  · exact h.startJob ⟨hb, (Bank.allSet_iff _).1 hw, hv, hp⟩
  · have hb : s.state ≠ .busy := by rcases hd with hd | hd <;> simp [hd]
    exact h.of_noJob rfl rfl h.pixCanonical h.pixInside (by simp) (by simp) (h.noJob hb)

/-- A write of a descriptor register takes effect outside BUSY only, where no job rests on the register. -/
theorem State.Inv.writeDesc {s : State} (h : s.Inv) (q : DReg) (v : Word) : (s.writeDesc q v).Inv := by
  by_cases hb : s.state = .busy
  · rwa [s.writeDesc_busy q v hb]
  · exact h.of_noJob (by simp) (by simp) (by simpa using h.pixCanonical) (by simpa using h.pixInside)
      (by simpa using h.errIffFailed) (by simpa using hb) (by simpa using h.noJob hb)

/-! ### The sampler and the reset event -/

/-- A pixel step writes inside PIX and advances a cursor that is below WIDTH. -/
theorem State.Inv.pixelStep {s : State} {j : Job} {y x : Nat} (h : s.Inv) (hj : s.job = some j)
    (hc : j.cur[y]? = some x) (hx : x < j.latched.W) : (s.pixelStep j y x).Inv := by
  have J := h.jobOk j hj
  have hbusy := h.busy hj
  refine { h with
    pixCanonical := wf_writeBands _ _ _ _ _ _ h.pixCanonical
    pixInside := below_writeBands _ _ _ _ _ _ _ h.pixInside
      fun ch hch => J.addr_lt .output (J.row hc).1 hx (List.mem_range.1 hch)
    jobIffBusy := by simp [hbusy]
    jobOk := ?_ }
  intro k hk
  cases hk
  have hcursors : ∀ n ∈ j.cur.set y (x + 1), n ≤ j.latched.W := fun n hn =>
    (List.mem_or_eq_of_mem_set hn).elim (J.cursors n) (by rintro rfl; exact hx)
  exact { J.congr rfl rfl rfl rfl (s.pixelStep_scale j y x) with
    rows := List.length_set.trans J.rows
    cursors := hcursors }

theorem State.Inv.completionStep {s : State} (h : s.Inv) : s.completionStep.Inv :=
  h.of_noJob rfl rfl h.pixCanonical h.pixInside (by simp) (by simp) rfl

theorem State.Inv.samplerStep {s : State} (h : s.Inv) (row : Option Nat) : (s.samplerStep row).Inv := by
  rcases s.samplerStep_cases row with e | ⟨j, y, x, -, hj, hc, hx, e⟩ | ⟨j, -, -, -, e⟩ <;> rw [e]
  · exact h
  · exact h.pixelStep hj hc hx
  · exact h.completionStep

/-- With a job running a reset writes back bands of the pixels in flight. -/
theorem State.resetEvent_pix_busy {s : State} {j : Job} (hb : s.state = .busy) (hj : s.job = some j)
    (torn : List (Nat × List Nat)) : (s.resetEvent torn).pix = tornWrites j (s.pixelByte j) torn s.pix := by
  simp [State.resetEvent, hb, hj]

theorem State.resetEvent_pix_notBusy {s : State} (hb : s.state ≠ .busy) (torn : List (Nat × List Nat)) :
    (s.resetEvent torn).pix = s.pix := by
  simp [State.resetEvent, hb]

theorem State.Inv.resetEvent {s : State} (h : s.Inv) (torn : List (Nat × List Nat)) : (s.resetEvent torn).Inv := by
  suffices hpix : Memory.wf (s.resetEvent torn).pix = true ∧
      Memory.below (2 ^ s.cfg.addrBits) (s.resetEvent torn).pix = true from
    h.of_noJob rfl rfl hpix.1 hpix.2 (by simp) (by simp) rfl
  by_cases hb : s.state = .busy
  · obtain ⟨j, hj⟩ := Option.isSome_iff_exists.1 (h.jobIffBusy.2 hb)
    have J := h.jobOk j hj
    rw [State.resetEvent_pix_busy hb hj]
    exact ⟨wf_tornWrites _ _ _ _ h.pixCanonical,
      below_tornWrites _ _ _ _ _ h.pixInside fun y x ch hc hx hch => J.addr_lt .output (J.row hc).1 hx hch⟩
  · rw [State.resetEvent_pix_notBusy hb]
    exact ⟨h.pixCanonical, h.pixInside⟩

/-! ### Every move -/

theorem State.Inv.runMove {s t : State} {m : Move} (h : s.Inv) (hm : s.runMove m = .next t) : t.Inv := by
  rcases State.runMove_next hm with ⟨_, _, i, -, -, -, he⟩ | ⟨_, v, q, -, -, rfl⟩ | ⟨_, _, -, rfl⟩ |
    ⟨v, -, rfl⟩ | ⟨a, -, -, rfl⟩ | ⟨a, v, -, ha, ⟨-, rfl⟩ | ⟨-, rfl⟩⟩ | ⟨o, v, -, ho, ⟨-, rfl⟩ | ⟨-, rfl⟩⟩ |
    ⟨-, rfl⟩ | ⟨row, -, rfl⟩ | ⟨torn, -, rfl⟩
  · exact h.exec he
  · exact h.writeDesc q v
  · exact h
  · exact h.congr rfl
  · exact h.returnOpenByte a
  · exact h.storePix v ha
  · exact (h.storePix v ha).disturb
  · exact h.storeTbl v ho
  · exact (h.storeTbl v ho).disturb
  · exact h.poll
  · exact h.samplerStep row
  · exact h.resetEvent torn

/-- Settles O48: by the lemma for each update that a step can be. -/
theorem everyStepKeepsTheInvariant : Obligations.EveryStepKeepsTheInvariant := by
  intro s t h hstep
  rcases step_next hstep with ⟨-, rfl⟩ | ⟨m, rest, -, hm⟩
  · exact h.samplerStep none
  · exact (h.withMoves rest).runMove hm

end Sys2Proof.Machine
end

section
/-! PROOFS. The progress of a running job: what it rests on, and that every step keeps it until the host breaks its
duties (10_state.md R38; 20_memory.md R64, R67). -/

namespace Sys2Proof.Machine

/-! ### What a job's progress rests on -/

theorem JobInv.noHazard {s : State} {j : Job} (h : JobInv s j) : NoHazard j.latched := by
  obtain ⟨-, -, -, hn⟩ := (precondition_eq_none_iff _ h.validated).1 h.preconditions
  exact hn

/-- A sample depends on its job's table and on no other element of TBL. -/
theorem pixelResult_congr_table {L : Descriptor} (hg : GridSizesLegal L) (c : Cfg) (pix : List Host.Cell)
    {tbl tbl' : List (Nat × Elem)} (h : ∀ o, InTable L o → Memory.read tbl' o = Memory.read tbl o) (y x : Nat)
    {ch : Nat} (hch : ch < L.tc) : pixelResult c L pix tbl' y x ch = pixelResult c L pix tbl y x ch :=
  pixelOut_congr rfl (fun _ => rfl) c rfl
    fun _ _ _ hi hj hk => h _ (cornerOffset_lt_tableLen hg c _ _ _ hi hj hk hch)

/-- A job's progress rests on the bytes it reads and writes and on its table (20_memory.md R64). -/
theorem JobProgress.congr {before : List Host.Cell} {s t : State} {j : Job} (hP : JobProgress before s j)
    (J : JobInv s j) (hc : t.cfg = s.cfg)
    (hpix : ∀ a, IsRead j.latched a ∨ IsWritten j.latched a → Memory.read t.pix a = Memory.read s.pix a)
    (htbl : ∀ o, InTable j.latched o → Memory.read t.tbl o = Memory.read s.tbl o) : JobProgress before t j := by
  obtain ⟨hdone, hleft⟩ := hP
  constructor
  · intro y x n ch hn hx hch
    obtain ⟨hy, hnW⟩ := J.row hn
    rw [hpix _ (.inr ⟨y, x, ch, hy, by omega, hch, rfl⟩), hc, pixelResult_congr_table J.grid _ _ htbl _ _ hch]
    exact hdone y x n ch hn hx hch
  · intro y x n b hn hx hxW hb
    rw [hpix _ (.inl ⟨y, x, b, (J.row hn).1, hxW, hb, rfl⟩)]
    exact hleft y x n b hn hx hxW hb

/-- A job whose cursors are all 0 has nothing done and all its input as it was. -/
theorem jobProgress_of_fresh {s : State} {j : Job} (h : ∀ x ∈ j.cur, x = 0) : JobProgress s.pix s j := by
  refine ⟨fun y x n ch hn hx _ => ?_, fun _ _ _ _ _ _ _ _ => rfl⟩
  have := h n (List.mem_of_getElem? hn)
  omega

/-! ### What a job leaves behind -/

/-- Every output sample of a job with descriptor `L` is the result on the memory `before` (40_transform_command.md
R113). -/
def HoldsResults (L : Descriptor) (before : List Host.Cell) (s : State) : Prop :=
  ∀ y x ch, y < L.H → x < L.W → ch < L.tc →
    Memory.read s.pix (sampleAddr L .output y x ch) = pixelResult s.cfg L before s.tbl y x ch

/-- When every cursor has reached WIDTH, every pixel is done. -/
theorem JobProgress.holdsResults {before : List Host.Cell} {s : State} {j : Job} (hP : JobProgress before s j)
    (J : JobInv s j) (hfin : ∀ x ∈ j.cur, j.latched.W ≤ x) : HoldsResults j.latched before s := by
  intro y x ch hy hx hch
  have hn : j.cur[y]? = some (j.cur[y]'(J.rows.symm ▸ hy)) := List.getElem?_eq_getElem _
  exact hP.1 y x _ ch hn (hx.trans_le (hfin _ (List.mem_of_getElem? hn))) hch

/-! ### What a step keeps -/

/-- What holds of the next state `t` of a job `j` towards which the host keeps its duties: the job goes on with its
progress, or it has ended, and in DONE its results stand. -/
def JobKept (before : List Host.Cell) (j : Job) (t : State) : Prop :=
  (∀ j', t.job = some j' → j'.latched = j.latched ∧ j'.disturbed = false ∧ JobProgress before t j') ∧
    (t.state = .done → HoldsResults j.latched before t)

theorem JobProgress.jobKept {before : List Host.Cell} {t : State} {j j' : Job} (hP : JobProgress before t j')
    (hb : t.state = .busy) (hj : t.job = some j') (hL : j'.latched = j.latched) (hfree : j'.disturbed = false) :
    JobKept before j t := by
  refine ⟨fun k hk => ?_, fun hd => ?_⟩
  · cases hj.symm.trans hk
    exact ⟨hL, hfree, hP⟩
  · cases hb.symm.trans hd

/-- A running job ignores every command. -/
theorem exec_busy {i : Instr} {s : State} (hb : s.state = .busy) : exec i s = .next s := by
  cases i with
  | nop => exact exec_nop s
  | xform => exact exec_xform_busy hb
  | ack => exact exec_ack_idle_or_busy (.inr hb)

/-- Everything a move can do to a running job: nothing to what the job rests on, a store that keeps the host's duties, a
store that breaks them and marks the job, a step of the sampler, or the reset. -/
theorem State.runMove_busy {s t : State} {j : Job} {m : Move} (hb : s.state = .busy) (hj : s.job = some j)
    (hm : s.runMove m = .next t) :
    (t = { s with moves := t.moves, readData := t.readData, draws := t.draws }) ∨
      (∃ a v, ¬ (IsRead j.latched a ∨ IsWritten j.latched a) ∧ t = s.storePix a v) ∨
      (∃ o e, ¬ InTable j.latched o ∧ t = s.storeTbl o e) ∨
      (BreaksDuty j.latched m ∧ t.state = .busy ∧ t.job = some { j with disturbed := true }) ∨
      (∃ row, m = .sampler row ∧ t = s.samplerStep row) ∨
      (t.state = .idle ∧ t.job = none) := by
  rcases State.runMove_next hm with ⟨_, _, i, -, -, -, he⟩ | ⟨_, v, q, -, -, rfl⟩ | ⟨_, _, -, rfl⟩ |
    ⟨v, -, rfl⟩ | ⟨a, -, -, rfl⟩ | ⟨a, v, rfl, -, hst⟩ | ⟨o, v, rfl, -, hst⟩ | ⟨-, rfl⟩ | ⟨row, hrow, rfl⟩ |
    ⟨torn, -, rfl⟩
  · cases (exec_busy hb).symm.trans he
    exact .inl rfl
  · rw [s.writeDesc_busy q v hb]
    exact .inl rfl
  · exact .inl rfl
  · exact .inl rfl
  · exact .inl rfl
  · have hduty := State.mayWritePix_busy hb hj a
    rcases hst with ⟨hmay, rfl⟩ | ⟨hmay, rfl⟩
    · exact .inr (.inl ⟨a, v, hduty.1 hmay, rfl⟩)
    · have hbreak : IsRead j.latched a ∨ IsWritten j.latched a := by
        rw [← not_not (a := _ ∨ _), ← hduty, hmay]
        exact Bool.false_ne_true
      refine .inr (.inr (.inr (.inl ⟨.inl ⟨a, v, rfl, hbreak⟩, ?_⟩)))
      rw [State.disturb_busy (s := s.storePix a v) hb hj]
      exact ⟨hb, rfl⟩
  · have hduty := State.mayWriteTbl_busy hb hj o
    rcases hst with ⟨hmay, rfl⟩ | ⟨hmay, rfl⟩
    · exact .inr (.inr (.inl ⟨o, v, hduty.1 hmay, rfl⟩))
    · have hbreak : InTable j.latched o := by
        rw [← not_not (a := InTable _ _), ← hduty, hmay]
        exact Bool.false_ne_true
      refine .inr (.inr (.inr (.inl ⟨.inr ⟨o, v, rfl, hbreak⟩, ?_⟩)))
      rw [State.disturb_busy (s := s.storeTbl o v) hb hj]
      exact ⟨hb, rfl⟩
  · rw [s.poll_frame]
    exact .inl rfl
  · exact .inr (.inr (.inr (.inr (.inl ⟨row, hrow, rfl⟩))))
  · exact .inr (.inr (.inr (.inr (.inr ⟨rfl, rfl⟩))))

section Kept

variable {before : List Host.Cell} {s : State} {j : Job} (h : s.Inv) (hj : s.job = some j)
  (hfree : j.disturbed = false) (hP : JobProgress before s j)

include h hj hfree hP

theorem State.samplerStep_jobKept (row : Option Nat) : JobKept before j (s.samplerStep row) := by
  have J := h.jobOk j hj
  rcases s.samplerStep_cases row with e | ⟨k, y, x, hb, hk, hc, hx, e⟩ | ⟨k, -, hk, hfin, e⟩ <;> rw [e]
  · exact hP.jobKept (h.busy hj) hj rfl hfree
  · cases hj.symm.trans hk
    exact (hP.pixelStep h.pixCanonical J J.noHazard hc hx hfree).jobKept hb rfl rfl hfree
  · cases hj.symm.trans hk
    exact ⟨nofun, fun _ => hP.holdsResults J hfin⟩

/-- A move keeps an undisturbed job and its progress, or it breaks the host's duties and marks the job. -/
theorem State.runMove_jobKept {t : State} {m : Move} (hm : s.runMove m = .next t) :
    JobKept before j t ∨ BreaksDuty j.latched m ∧ t.state = .busy ∧ t.job = some { j with disturbed := true } := by
  have J := h.jobOk j hj
  have hb := h.busy hj
  rcases State.runMove_busy hb hj hm with e | ⟨a, v, ha, rfl⟩ | ⟨o, v, ho, rfl⟩ | hbreak | ⟨row, -, rfl⟩ | ⟨hi, hn⟩
  · rw [e]
    exact .inl (JobProgress.jobKept (hP.congr J rfl (fun _ _ => rfl) fun _ _ => rfl) hb hj rfl hfree)
  · have hpix : ∀ b, IsRead j.latched b ∨ IsWritten j.latched b →
        Memory.read (s.storePix a v).pix b = Memory.read s.pix b := fun b hjob =>
      Memory.read_write_ne _ _ _ _ (by rintro rfl; exact ha hjob)
    exact .inl (JobProgress.jobKept (hP.congr J rfl hpix fun _ _ => rfl) hb hj rfl hfree)
  · have htbl : ∀ p, InTable j.latched p → Memory.read (s.storeTbl o v).tbl p = Memory.read s.tbl p := fun p hjob =>
      Memory.read_write_ne _ _ _ _ (by rintro rfl; exact ho hjob)
    exact .inl (JobProgress.jobKept (hP.congr J rfl (fun _ _ => rfl) htbl) hb hj rfl hfree)
  · exact .inr hbreak
  · exact .inl (State.samplerStep_jobKept h hj hfree hP row)
  · exact .inl ⟨by simp [hn], by simp [hi]⟩

end Kept

/-- An XFORM that leads from another state to BUSY has started its job. -/
theorem exec_xform_starts {s t : State} (hb : s.state ≠ .busy) (h : exec .xform s = .next t)
    (ht : t.state = .busy) : s.StartsJob ∧ t = s.startJob := by
  rcases exec_next h with rfl | ⟨-, -, -, rfl⟩ | ⟨-, -, hw, hv, hp, e⟩ | ⟨hi, -⟩
  · exact absurd ht hb
  · cases ht
  · exact ⟨⟨hb, (Bank.allSet_iff _).1 hw, hv, hp⟩, e⟩
  · cases hi

/-- Settles O49: a fresh job has its progress, and `State.runMove_jobKept` carries it through every step. -/
theorem jobProgressIsKept : Obligations.JobProgressIsKept := by
  constructor
  · intro s t j hb h ht hj
    obtain ⟨-, rfl⟩ := exec_xform_starts hb h ht
    cases hj
    exact ⟨rfl, jobProgress_of_fresh (s := s.startJob) fun _ => List.eq_of_mem_replicate⟩
  · intro s t j before h hj hfree hP hstep
    have hkept : JobKept before j t ∨
        t.state = .busy ∧ t.job = some { j with disturbed := true } ∧
          ∃ m rest, s.moves = m :: rest ∧ BreaksDuty j.latched m := by
      rcases step_next hstep with ⟨-, rfl⟩ | ⟨m, rest, hmoves, hm⟩
      · exact .inl (State.samplerStep_jobKept h hj hfree hP none)
      · exact (State.runMove_jobKept (s := s.withMoves rest) (h.withMoves rest) hj hfree hP hm).imp id
          fun ⟨hbreak, hb, hd⟩ => ⟨hb, hd, m, rest, hmoves, hbreak⟩
    rcases hkept with ⟨hgoes, hdone⟩ | ⟨hb, hd, hbreak⟩
    · exact ⟨fun j' hj' => (hgoes j' hj').imp id .inl, hdone⟩
    · refine ⟨fun j' hj' => ?_, fun hdone => by cases hb.symm.trans hdone⟩
      cases hd.symm.trans hj'
      exact ⟨rfl, .inr ⟨rfl, hbreak⟩⟩

end Sys2Proof.Machine
end

section
/-! PROOFS. The steps of the sampler: which one is taken, its frame, and the completion step (40_transform_command.md
R106, R110, R111). -/

namespace Sys2Proof.Machine

/-! ### Which step is taken -/

theorem step_sampler {s : State} {row : Option Nat} {rest : List Move} (h : s.moves = .sampler row :: rest) :
    step s = .next ((s.withMoves rest).samplerStep row) := step_move s _ rest h

/-- A row that is finished has no step. -/
theorem State.samplerStep_finishedRow {s : State} {j : Job} {y x : Nat} (hj : s.job = some j)
    (hc : j.cur[y]? = some x) (hx : j.latched.W ≤ x) : s.samplerStep (some y) = s := by
  have he : j.enabledAt y = none := by
    simp [Job.enabledAt, hc, hx]
  by_cases hb : s.state = .busy
  · simp [State.samplerStep, hb, hj, he]
  · exact s.samplerStep_notBusy _ hb

/-- An unfinished row with finished rows before it is the reference schedule's. -/
theorem Job.nextPixel_of_least {j : Job} {y x : Nat} (hc : j.cur[y]? = some x) (hx : x < j.latched.W)
    (hleast : ∀ v n, v < y → j.cur[v]? = some n → j.latched.W ≤ n) : j.nextPixel = some (y, x) := by
  cases hn : j.nextPixel with
  | none =>
    have := j.nextPixel_eq_none.1 hn x (List.mem_of_getElem? hc)
    omega
  | some p =>
    obtain ⟨v, n⟩ := p
    obtain ⟨hv, hnW, hbefore⟩ := Job.nextPixel_eq_some hn
    rcases Nat.lt_trichotomy v y with hlt | rfl | hgt
    · have := hleast v n hlt hv
      omega
    · cases hc.symm.trans hv
      rfl
    · have := hbefore y hgt x hc
      omega

/-- Settles O43: the step is the pixel step, which writes the bands of its pixel only. -/
theorem pixelStepFrame : Obligations.PixelStepFrame := by
  intro s j y x rest hb hj hc hx h
  refine ⟨_, step_sampler_row hb hj hc hx h, rfl, fun hfree => by simp [hfree], fun a ha => ?_⟩
  exact read_writeBands_other _ _ _ _ _ _ _ fun ch hch => ha ch (List.mem_range.1 hch)

/-- After the pixel step each output band of its pixel holds the byte that `State.pixelByte` gives it. -/
theorem State.read_pixelStep {s : State} {j : Job} {ch : Nat} (hwf : Memory.wf s.pix = true)
    (hch : ch < j.latched.tc) (y x : Nat) :
    Memory.read (s.pixelStep j y x).pix (sampleAddr j.latched .output y x ch) = s.pixelByte j y x ch := by
  rw [State.pixelStep_pix, read_writeBands_band _ _ _ _ _ _ hwf ch (List.mem_range.2 hch)]

/-- Settles O44: a named row steps when it is unfinished, and the least one is also the reference schedule's. -/
theorem anyUnfinishedRowMayStep : Obligations.AnyUnfinishedRowMayStep := by
  intro s j y x rest hb hj hc
  refine ⟨fun hx h => ?_, fun hx h => ?_, fun hx hleast => ?_⟩
  · obtain ⟨hy, -⟩ := List.getElem?_eq_some_iff.1 hc
    exact ⟨_, _, step_sampler_row hb hj hc hx h, hb, rfl, rfl, rfl, List.getElem?_set_self hy,
      fun v hv => List.getElem?_set_ne hv.symm,
      fun hwf ch hch => State.read_pixelStep (s := s.withMoves rest) hwf hch y x⟩
  · rw [step_sampler h, State.samplerStep_finishedRow (s := s.withMoves rest) hj hc hx]
    rfl
  · have hnext := State.samplerStep_next (s := s.withMoves []) hb hj (Job.nextPixel_of_least hc hx hleast)
    have hrow := State.samplerStep_some (s := s.withMoves []) hb hj hc hx
    have hsame : (s.withMoves []).samplerStep none = (s.withMoves []).samplerStep (some y) := hnext.trans hrow.symm
    exact ⟨congrArg Host.Outcome.next hsame, congrArg Host.Outcome.next hsame⟩

/-! ### The completion step -/

/-- A pixel step is a change: its row's cursor has advanced. -/
theorem State.pixelStep_ne {s : State} {j : Job} {y x : Nat} (hj : s.job = some j) (hc : j.cur[y]? = some x) :
    s.pixelStep j y x ≠ s := by
  intro h
  have hjob := congrArg State.job h
  rw [State.pixelStep_job, hj, Option.some.injEq] at hjob
  have hsum := sum_set_cursor j.cur y x hc
  have := congrArg (fun k : Job => k.cur.sum) hjob
  simp only at this
  omega

/-- While a job runs the reference schedule always has a step, and the step is a change. -/
theorem State.samplerStep_none_ne {s : State} {j : Job} (hb : s.state = .busy) (hj : s.job = some j) :
    s.samplerStep none ≠ s := by
  cases hn : j.nextPixel with
  | none =>
    rw [State.samplerStep_finished hb hj (j.nextPixel_eq_none.1 hn)]
    intro h
    cases hb.symm.trans (congrArg State.state h).symm
  | some p =>
    rw [State.samplerStep_next hb hj hn]
    exact State.pixelStep_ne hj (Job.nextPixel_eq_some hn).1

/-- With an unfinished row no step of the sampler leaves BUSY. -/
theorem State.samplerStep_busy {s : State} {j : Job} (hb : s.state = .busy) (hj : s.job = some j)
    (hun : ∃ x ∈ j.cur, x < j.latched.W) (row : Option Nat) : (s.samplerStep row).state = .busy := by
  rcases s.samplerStep_cases row with e | ⟨_, _, _, -, -, -, -, e⟩ | ⟨k, -, hk, hfin, -⟩
  · rwa [e]
  · rwa [e]
  · cases hj.symm.trans hk
    obtain ⟨x, hx, hlt⟩ := hun
    exact absurd (hfin x hx) (by omega)

/-- Outside BUSY a step with no move pending is none. -/
theorem step_notBusy_noMoves {s : State} (hb : s.state ≠ .busy) (h : s.moves = []) : step s = .next s := by
  rw [step_noMoves s h, s.samplerStep_notBusy none hb]

theorem step_notBusy_sampler {s : State} {row : Option Nat} {rest : List Move} (hb : s.state ≠ .busy)
    (h : s.moves = .sampler row :: rest) : step s = .next { s with moves := rest } := by
  rw [step_sampler h, (s.withMoves rest).samplerStep_notBusy row hb]
  rfl

/-- Settles O45: by the sampler's step in each situation. -/
theorem completionEndsTheJob : Obligations.CompletionEndsTheJob := by
  intro s rest
  refine ⟨fun hb j hj => ⟨fun hfin h => ?_, fun hun row h => ?_, fun h hstep => ?_⟩, fun hb =>
    ⟨fun row => step_notBusy_sampler hb, step_notBusy_noMoves hb⟩⟩
  · rw [step_sampler h, State.samplerStep_finished (s := s.withMoves rest) hb hj hfin]
    rfl
  · exact ⟨_, step_sampler h, State.samplerStep_busy (s := s.withMoves rest) hb hj hun row⟩
  · rw [step_noMoves s h] at hstep
    injection hstep with hstep
    exact State.samplerStep_none_ne hb hj hstep

/-! ### Progress -/

/-- Cursors that are at most `W` have all reached it exactly when their sum is `W` for each. -/
theorem cursors_finished_iff {W : Nat} {cur : List Nat} (h : ∀ x ∈ cur, x ≤ W) :
    (∀ x ∈ cur, W ≤ x) ↔ W * cur.length ≤ cur.sum := by
  induction cur with
  | nil => simp
  | cons x cur ih =>
    rw [List.forall_mem_cons] at h
    have hsum : cur.sum ≤ cur.length * W := List.sum_le_card_nsmul _ _ h.2
    rw [Nat.mul_comm] at hsum
    rw [List.forall_mem_cons, ih h.2, List.length_cons, List.sum_cons, Nat.mul_succ]
    omega

/-- With pixels left the reference schedule takes the next one and adds 1 to the cursors' sum. -/
theorem State.Inv.step_unfinished {s : State} {j : Job} (h : s.Inv) (hj : s.job = some j) (hm : s.moves = [])
    (hleft : j.cur.sum < j.latched.W * j.latched.H) :
    ∃ t j', step s = .next t ∧ t.Inv ∧ t.job = some j' ∧ t.moves = [] ∧ j'.latched = j.latched ∧
      j'.cur.sum = j.cur.sum + 1 := by
  have J := h.jobOk j hj
  cases hn : j.nextPixel with
  | none =>
    have := (cursors_finished_iff J.cursors).1 (j.nextPixel_eq_none.1 hn)
    rw [J.rows] at this
    omega
  | some p =>
    obtain ⟨y, x⟩ := p
    obtain ⟨hc, hx, -⟩ := Job.nextPixel_eq_some hn
    have hstep : step s = .next (s.pixelStep j y x) := by
      rw [step_noMoves s hm, State.samplerStep_next (h.busy hj) hj hn]
    exact ⟨_, _, hstep, h.pixelStep hj hc hx, rfl, hm, rfl, sum_set_cursor j.cur y x hc⟩

/-- So many steps of the reference schedule do so many pixels, as long as there are pixels left. -/
theorem State.Inv.run_unfinished {j : Job} {k : Nat} {s : State} (h : s.Inv) (hj : s.job = some j) (hm : s.moves = [])
    (hk : j.cur.sum + k ≤ j.latched.W * j.latched.H) :
    ∃ t j', runSteps k s = .next t ∧ t.Inv ∧ t.job = some j' ∧ t.moves = [] ∧ j'.latched = j.latched ∧
      j'.cur.sum = j.cur.sum + k := by
  induction k generalizing s j with
  | zero => exact ⟨s, j, rfl, h, hj, hm, rfl, rfl⟩
  | succ k ih =>
    obtain ⟨u, i, hstep, hu, hi, hmu, hL, hsum⟩ := h.step_unfinished hj hm (by omega)
    obtain ⟨t, j', hrun, ht, hj', hmt, hL', hsum'⟩ := ih hu hi hmu (by rw [hL, hsum]; omega)
    exact ⟨t, j', (runSteps_next hstep).trans hrun, ht, hj', hmt, hL'.trans hL, by omega⟩

/-- One step after its last pixel a job is DONE. -/
theorem State.Inv.run_to_done {s : State} {j : Job} (h : s.Inv) (hj : s.job = some j) (hm : s.moves = []) {k : Nat}
    (hk : j.cur.sum + k = j.latched.W * j.latched.H) : ∃ t, runSteps (k + 1) s = .next t ∧ t.state = .done := by
  obtain ⟨u, i, hrun, hu, hi, hmu, hL, hsum⟩ := h.run_unfinished hj hm hk.le
  have I := hu.jobOk i hi
  have hfin : ∀ x ∈ i.cur, i.latched.W ≤ x := by
    rw [cursors_finished_iff I.cursors, I.rows, hL]
    omega
  have hstep : step u = .next u.completionStep := by
    rw [step_noMoves u hmu, State.samplerStep_finished (hu.busy hi) hi hfin]
  exact ⟨_, (runSteps_add hrun).trans (runSteps_next hstep), rfl⟩

/-- A running job's cursors sum to at most the pixels of its image. -/
theorem JobInv.sum_le {s : State} {j : Job} (h : JobInv s j) : j.cur.sum ≤ j.latched.W * j.latched.H := by
  have : j.cur.sum ≤ j.cur.length * j.latched.W := List.sum_le_card_nsmul _ _ h.cursors
  rwa [h.rows, Nat.mul_comm] at this

/-- Settles O46: the cursors' sum counts the pixels done, and the reference schedule adds 1 to it. -/
theorem busyJobReachesDone : Obligations.BusyJobReachesDone := by
  intro s j h hj hm
  have hsum := (h.jobOk j hj).sum_le
  refine ⟨fun k hk => ?_, h.run_to_done hj hm (by omega)⟩
  obtain ⟨t, j', hrun, ht, hj', -, -, hcount⟩ := h.run_unfinished hj hm (k := k) (by omega)
  exact ⟨t, j', hrun, ht.busy hj', hj', hcount⟩

end Sys2Proof.Machine
end

section
/-! PROOFS. The encoding of the commands and the placing of one as the next CMD write (30_encoding.md R80, R82). -/

namespace Sys2Proof.Machine

theorem decode_encode (i : Instr) : decode (encode i) = .ok i := by cases i <;> rfl

/-- Settles O2: the words are the three of the table, and the decoder has no other branch. -/
theorem decodeAndEncodeAgree : Obligations.DecodeAndEncodeAgree :=
  ⟨fun i _ => decode_encode i, fun _ _ => eq_encode_of_decode⟩

/-- All 32 bits of a word make the word. -/
theorem tableWord_toNat (w : Word) : tableWord 32 w.toNat = w := by
  rw [tableWord, Nat.mod_eq_of_lt w.isLt, BitVec.ofNat_toNat, BitVec.setWidth_eq]

/-- A command placed as the next CMD write is what the next step runs (log 6). -/
theorem step_withCommand (s : State) (i : Instr) : step (s.withCommand (encode i)) = exec i s :=
  step_regWrite_cmd (decode_encode i) rfl

/-- Settles O5: the placed word is the command's word. -/
theorem placedCommandRunsNext : Obligations.PlacedCommandRunsNext := by
  intro s i
  rw [State.withFetchWord, tableWord_toNat]
  exact step_withCommand s i

end Sys2Proof.Machine
end

section
/-! PROOFS. A job as one function: what a run of the sampler alone leaves, under every schedule and wherever the output
lies (40_transform_command.md R113, R114; 20_memory.md R67). -/

namespace Sys2Proof.Machine

/-! ### A run of the sampler alone -/

/-- `s` is reached from `s₀`, where job `j` has been accepted, by steps of the sampler only: what such a run keeps. -/
structure RunOf (s₀ : State) (j : Job) (s : State) : Prop where
  inv : s.Inv
  /-- nobody but the sampler moves -/
  alone : SamplerOnly s.moves
  /-- neither the configuration nor TBL nor a register has changed -/
  frame : s.cfg = s₀.cfg ∧ s.tbl = s₀.tbl ∧ s.desc = s₀.desc ∧ ∀ a, s.scale a = s₀.scale a
  kept : JobKept s₀.pix j s
  /-- bytes that the job does not write are as before -/
  others : ∀ a, ¬ IsWritten j.latched a → Memory.read s.pix a = Memory.read s₀.pix a

/-- A step of the sampler writes bytes of its job's output only (20_memory.md R59). -/
theorem State.read_samplerStep_other {s : State} {j : Job} (hj : s.job = some j) (J : JobInv s j) (row : Option Nat)
    {a : Nat} (ha : ¬ IsWritten j.latched a) : Memory.read (s.samplerStep row).pix a = Memory.read s.pix a := by
  rcases s.samplerStep_cases row with e | ⟨k, y, x, -, hk, hc, hx, e⟩ | ⟨-, -, -, -, e⟩ <;> rw [e]
  · cases hj.symm.trans hk
    refine read_writeBands_other _ _ _ _ _ _ _ fun ch hch hband => ha ?_
    exact ⟨y, x, ch, (J.row hc).1, hx, List.mem_range.1 hch, hband⟩
  · rfl

/-- A fresh job's run begins. -/
theorem RunOf.start {s : State} {j : Job} {ms : List Move} (h : s.Inv) (hj : s.job = some j)
    (hfree : j.disturbed = false) (hfresh : ∀ x ∈ j.cur, x = 0) (hms : SamplerOnly ms) :
    RunOf s j (s.withMoves ms) where
  inv := h.withMoves ms
  alone := hms
  frame := ⟨rfl, rfl, rfl, s.withMoves_scale ms⟩
  kept := JobProgress.jobKept (t := s.withMoves ms) (jobProgress_of_fresh hfresh) (h.busy hj) hj rfl hfree
  others := fun _ _ => rfl

section Step

variable {s₀ s : State} {j : Job} (h : RunOf s₀ j s)

include h

theorem RunOf.withMoves {ms : List Move} (hms : SamplerOnly ms) : RunOf s₀ j (s.withMoves ms) where
  inv := h.inv.withMoves ms
  alone := hms
  frame := by simpa using h.frame
  kept := h.kept
  others := h.others

theorem RunOf.samplerStep (row : Option Nat) : RunOf s₀ j (s.samplerStep row) := by
  cases hk : s.job with
  | none =>
    have hb : s.state ≠ .busy := fun hb => by simpa [hk] using h.inv.jobIffBusy.2 hb
    rwa [s.samplerStep_notBusy row hb]
  | some k =>
    obtain ⟨hL, hfree, hP⟩ := h.kept.1 k hk
    have hkept := State.samplerStep_jobKept h.inv hk hfree hP row
    have hother := fun a => State.read_samplerStep_other (a := a) hk (h.inv.jobOk k hk) row
    unfold JobKept at hkept
    rw [hL] at hkept hother
    exact {
      inv := h.inv.samplerStep row
      alone := by simpa using h.alone
      frame := by simpa using h.frame
      kept := hkept
      others := fun a ha => (hother a ha).trans (h.others a ha) }

theorem RunOf.step {t : State} (hstep : step s = .next t) : RunOf s₀ j t := by
  rcases step_next hstep with ⟨-, rfl⟩ | ⟨m, rest, hmoves, hm⟩
  · exact h.samplerStep none
  · have halone := h.alone
    rw [hmoves, SamplerOnly, List.forall_mem_cons] at halone
    obtain ⟨⟨row, rfl⟩, hrest⟩ := halone
    injection hm with hm
    rw [← hm]
    exact (h.withMoves hrest).samplerStep row

/-- In DONE the memory is the job's result. -/
theorem RunOf.jobResult (hd : s.state = .done) : JobResult s₀.cfg j.latched s₀.tbl s₀.pix s.pix := by
  obtain ⟨hc, ht, -⟩ := h.frame
  rw [← hc, ← ht]
  exact ⟨h.kept.2 hd, h.others⟩

end Step

theorem RunOf.run {s₀ s t : State} {j : Job} {n : Nat} (h : RunOf s₀ j s) (hrun : runSteps n s = .next t) :
    RunOf s₀ j t :=
  runSteps_keeps (P := RunOf s₀ j) (fun _ _ hu hstep => hu.step hstep) h hrun

/-- The result of a job on a memory is one memory. -/
theorem JobResult.unique {c : Cfg} {L : Descriptor} {tbl : List (Nat × Elem)} {before pix pix' : List Host.Cell}
    (h : JobResult c L tbl before pix) (h' : JobResult c L tbl before pix') (hwf : Memory.wf pix = true)
    (hwf' : Memory.wf pix' = true) : pix = pix' := by
  refine Memory.ext_of_read hwf hwf' fun a => ?_
  by_cases ha : IsWritten L a
  · obtain ⟨y, x, ch, hy, hx, hch, rfl⟩ := ha
    rw [h.1 y x ch hy hx hch, h'.1 y x ch hy hx hch]
  · rw [h.2 a ha, h'.2 a ha]

/-- Settles O51: both runs end in the one memory that is the job's result. -/
theorem allSchedulesAgree : Obligations.AllSchedulesAgree := by
  intro s j ms ms' t t' h hj hfree hfresh hms hms' hrun hrun' hd hd'
  have ht := (RunOf.start h hj hfree hfresh hms).run hrun
  have ht' := (RunOf.start h hj hfree hfresh hms').run hrun'
  have hres := ht.jobResult hd
  exact ⟨hres.unique (ht'.jobResult hd') ht.inv.pixCanonical ht'.inv.pixCanonical, hres⟩

/-! ### An accepted XFORM -/

/-- The job that an XFORM starts (40_transform_command.md R105). -/
def State.freshJob (s : State) : Job := { latched := s.desc, cur := List.replicate s.desc.H 0, disturbed := false }

/-- With no other move of the host an accepted XFORM, a step for each pixel and a completion step lead to DONE. -/
theorem State.Inv.run_xform {s : State} (h : s.Inv) (hs : s.StartsJob) (hm : s.moves = []) :
    ∃ t, runSteps (s.desc.W * s.desc.H + 2) (s.withCommand (encode .xform)) = .next t ∧ t.state = .done ∧
      RunOf s.startJob s.freshJob t := by
  have hstep : step (s.withCommand (encode .xform)) = .next s.startJob :=
    (step_withCommand s .xform).trans hs.exec_xform_eq
  have hinv := h.startJob hs
  have hstart : RunOf s.startJob s.freshJob (s.startJob.withMoves s.moves) :=
    RunOf.start hinv rfl rfl (fun _ => List.eq_of_mem_replicate) (by rw [hm]; exact nofun)
  obtain ⟨t, hrun, hd⟩ := hinv.run_to_done (j := s.freshJob) rfl hm (k := s.desc.W * s.desc.H)
    (by simp [State.freshJob])
  exact ⟨t, (runSteps_next hstep).trans hrun, hd, hstart.run hrun⟩

/-- Settles O50: the run of the started job, whose memory at DONE is the job's result. -/
theorem xformComputesTheWholeImage : Obligations.XformComputesTheWholeImage := by
  intro s h hs hm
  obtain ⟨t, hrun, hd, ht⟩ := h.run_xform hs hm
  have herr : t.err = .noError := by
    by_contra hne
    cases hd.symm.trans (ht.inv.errIffFailed.1 hne)
  obtain ⟨-, htbl, hdesc, hscale⟩ := ht.frame
  refine ⟨t, hrun, hd, herr, ht.jobResult hd, htbl, hdesc, fun a => ?_⟩
  rw [hscale]
  exact s.startJob_scale h.cfgOk hs.gridSizesLegal a

/-- Settles O52: both memories are their jobs' results, and a sample does not depend on the output image. -/
theorem inPlaceSafety : Obligations.InPlaceSafety := by
  intro s s' t t' h h' hs hs' hm hm' hcfg htbl hdesc hread hrun hrun' y x ch hy hx hch
  have hW : s'.desc.W = s.desc.W := (congrArg Bank.W hdesc).trans rfl
  have hH : s'.desc.H = s.desc.H := (congrArg Bank.H hdesc).trans rfl
  have htc : s'.desc.tc = s.desc.tc := (congrArg Bank.tc hdesc).trans rfl
  have hsize (a : Axis) : s'.desc.size a = s.desc.size a := by
    rw [hdesc]
    cases a <;> rfl
  have hin (b : Nat) : sampleAddr s'.desc .input y x b = sampleAddr s.desc .input y x b :=
    (congrArg (sampleAddr · .input y x b) hdesc).trans rfl
  obtain ⟨u, hu, hd, hres⟩ := h.run_xform hs hm
  obtain ⟨u', hu', hd', hres'⟩ := h'.run_xform hs' hm'
  rw [hW, hH] at hu'
  cases hu.symm.trans hrun
  cases hu'.symm.trans hrun'
  calc Memory.read t.pix (sampleAddr s.desc .output y x ch)
      = pixelResult s.cfg s.desc s.pix s.tbl y x ch := (hres.jobResult hd).1 y x ch hy hx hch
    _ = pixelResult s.cfg s'.desc s'.pix s'.tbl y x ch := by
      refine (sampleDependsOnlyOnItsPixel.2 _ _ _ _ _ _ _ y x y x ch _ htc hsize (fun b hb => ?_) rfl
        fun _ _ _ _ _ _ => by rw [htbl]).symm
      rw [hin, hread _ ⟨y, x, b, hy, hx, hb, rfl⟩]
    _ = Memory.read t'.pix (sampleAddr s'.desc .output y x ch) := by
      rw [← hcfg]
      exact ((hres'.jobResult hd').1 y x ch (hH ▸ hy) (hW ▸ hx) (htc ▸ hch)).symm

end Sys2Proof.Machine
end

section
/-! PROOFS. The identities and the ranges of the blends, and what follows for the rounded sample
(42_trilinear_interpolator.md R158, R159; 43_rounding_clipper.md R173 to R177). -/

namespace Sys2Proof.Machine

/-! ### The blend of equal ends -/

section EqualEnds

variable {c : Cfg} {a : Int} {f : Nat} (hf : f ≤ 2 ^ c.shiftBits - 1)

include hf

/-- The weights sum to one less than the unit, whatever the fraction. -/
theorem lerp_same (a : Int) : lerp c a a f = sar (a * (2 ^ c.shiftBits - 1)) c.shiftBits := by
  rw [lerp, blendSum_eq c a a f hf]
  congr 1
  ring

theorem lerp_same_zero : lerp c 0 0 f = 0 := by
  rw [lerp_same hf, zero_mul]
  exact Int.zero_ediv _

/-- The missing part of the unit takes a positive value below itself. -/
theorem lerp_same_pos (hlo : 1 ≤ a) (hhi : a ≤ 2 ^ c.shiftBits) : lerp c a a f = a - 1 := by
  rw [lerp_same hf]
  apply sar_eq_of_bounds <;> linarith

/-- Toward negative infinity the missing part of the unit is rounded away again. -/
theorem lerp_same_neg (hlo : -(2 ^ c.shiftBits : Int) < a) (hhi : a ≤ -1) : lerp c a a f = a := by
  rw [lerp_same hf]
  apply sar_eq_of_bounds <;> linarith

theorem lerp_same_min (ha : a = -(2 ^ c.shiftBits : Int)) : lerp c a a f = a + 1 := by
  have hunit : (0 : Int) < 2 ^ c.shiftBits := by positivity
  rw [lerp_same hf]
  apply sar_eq_of_bounds <;> rw [ha] <;> linarith

end EqualEnds

/-- The fraction 0 takes the first end only. -/
theorem blendSum_zero (c : Cfg) (a b : Int) : blendSum c a b 0 = a * (2 ^ c.shiftBits - 1) := by
  rw [blendSum_eq c a b 0 (Nat.zero_le _), Nat.cast_zero, sub_zero, mul_zero, add_zero]

/-- The largest fraction takes the second end only. -/
theorem blendSum_last (c : Cfg) (a b : Int) :
    blendSum c a b (2 ^ c.shiftBits - 1) = b * (2 ^ c.shiftBits - 1) := by
  have hone : 1 ≤ 2 ^ c.shiftBits := Nat.one_le_two_pow
  rw [blendSum_eq c a b _ le_rfl]
  push_cast [hone]
  ring

theorem lerp_zero (c : Cfg) (a b : Int) : lerp c a b 0 = lerp c a a 0 := by
  rw [lerp, lerp, blendSum_zero, blendSum_zero]

/-- Settles O33: the weighted sum of equal ends is the value times the sum of the weights. -/
theorem lerpIdentities : Obligations.LerpIdentities := by
  intro c a b f hc hf
  refine ⟨lerp_same hf a, lerp_same_pos hf, ?_, lerp_same_neg hf, lerp_same_min hf, lerp_zero c a b, ?_⟩
  · rintro rfl
    exact lerp_same_zero hf
  · rw [lerp, lerp, blendSum_last, blendSum_zero]

/-! ### The ranges of the blends -/

/-- A range that a blend leads into a part of itself holds all six intermediate values of a channel. -/
theorem blends_forall {c : Cfg} {C : Nat → Nat → Nat → Int} {f0 f1 : Nat} (f2 : Nat) {P Q : Int → Prop}
    (hf0 : f0 ≤ 2 ^ c.shiftBits - 1) (hf1 : f1 ≤ 2 ^ c.shiftBits - 1) (hC : ∀ i j k, P (C i j k))
    (hQ : ∀ v, Q v → P v) (hlerp : ∀ a b f, f ≤ 2 ^ c.shiftBits - 1 → P a → P b → Q (lerp c a b f)) :
    ∀ v ∈ [(blends c C f0 f1 f2).leftleft, (blends c C f0 f1 f2).leftright, (blends c C f0 f1 f2).rightleft,
      (blends c C f0 f1 f2).rightright, (blends c C f0 f1 f2).left, (blends c C f0 f1 f2).right], Q v := by
  have hfirst (j k : Nat) : Q (lerp c (C 0 j k) (C 1 j k) f0) := hlerp _ _ _ hf0 (hC 0 j k) (hC 1 j k)
  have hsecond (k : Nat) : Q (lerp c (lerp c (C 0 0 k) (C 1 0 k) f0) (lerp c (C 0 1 k) (C 1 1 k) f0) f1) :=
    hlerp _ _ _ hf1 (hQ _ (hfirst 0 k)) (hQ _ (hfirst 1 k))
  simp only [List.forall_mem_cons]
  exact ⟨hfirst 0 0, hfirst 1 0, hfirst 0 1, hfirst 1 1, hsecond 0, hsecond 1, nofun⟩

/-- A blend of values from 0 to `hi` is one of them. -/
theorem lerp_mem {c : Cfg} {a b hi : Int} {f : Nat} (hf : f ≤ 2 ^ c.shiftBits - 1) (ha : 0 ≤ a ∧ a ≤ hi)
    (hb : 0 ≤ b ∧ b ≤ hi) : 0 ≤ lerp c a b f ∧ lerp c a b f ≤ hi := by
  have hunit : (0 : Int) < 2 ^ c.shiftBits := by positivity
  obtain ⟨hlo, hhi⟩ := blendSum_range hf ha hb
  have hnonneg := ha.1.trans ha.2
  exact ⟨le_sar_iff.2 (by linarith), Int.lt_add_one_iff.1 (sar_lt_iff.2 (by linarith))⟩

/-- The bias is at most 64 units of the blends' scale (K1). -/
theorem roundingBias_le {c : Cfg} (hc : c.wellFormed = true) :
    (roundingBias c : Int) ≤ 64 * 2 ^ c.shiftBits := by
  obtain ⟨⟨-, hk1⟩, -⟩ := (Cfg.wellFormed_iff c).1 hc
  have hrounding : precisionRounding c ≤ 2 ^ 6 := Nat.pow_le_pow_right (by decide) (by omega)
  have hbias : roundingBias c ≤ 2 ^ 6 * 2 ^ c.shiftBits := Nat.mul_le_mul_right _ hrounding
  exact mod_cast hbias

/-- The rounding at the default configuration, in numbers. -/
theorem roundShift_standard (acc : Int) : roundShift Cfg.standard acc = (acc + 1048576) / 2097152 := by
  norm_num [roundShift, sar, roundingBias, precisionRounding, Cfg.standard]

/-- The rounded value of a sum of in-range blends is a sample: the bias is less than the unit that the sum falls short
of 256 levels. -/
theorem roundShift_mem {c : Cfg} {acc : Int} (hc : c.wellFormed = true) (hlo : 0 ≤ acc)
    (hhi : acc ≤ 255 * 2 ^ c.precisionBits * (2 ^ c.shiftBits - 1)) :
    0 ≤ roundShift c acc ∧ roundShift c acc ≤ 255 := by
  have hbias : 2 * (roundingBias c : Int) = 2 ^ c.precisionBits * 2 ^ c.shiftBits := by
    rw [← pow_add]
    exact mod_cast two_mul_roundingBias hc
  have hprec : (0 : Int) < 2 ^ c.precisionBits := by positivity
  have hlevel : (0 : Int) < 2 ^ c.precisionBits * 2 ^ c.shiftBits := by positivity
  constructor
  · exact le_sar_iff.2 (by omega)
  · refine Int.lt_add_one_iff.1 (sar_lt_iff.2 ?_)
    rw [pow_add]
    linarith

/-- Settles O35: the blend keeps INT16 and the table's range, and the last sum is at most `2^SHIFT_BITS - 1` times
them. -/
theorem blendsFitTheirLanes : Obligations.BlendsFitTheirLanes := by
  intro c C f0 f1 f2 hc hf0 hf1 hf2
  refine ⟨fun hC => ?_, fun hC => ?_⟩
  · have hwiden : ∀ v : Int, -32767 ≤ v ∧ v ≤ 32766 → -32768 ≤ v ∧ v ≤ 32767 := fun v hv => by omega
    have hall := blends_forall f2 hf0 hf1 hC hwiden fun a b f hf ha hb => lerp_range hc hf ha hb
    obtain ⟨hlo, hhi⟩ : -32768 * (2 ^ c.shiftBits - 1) ≤ (blends c C f0 f1 f2).acc ∧
        (blends c C f0 f1 f2).acc ≤ 32767 * (2 ^ c.shiftBits - 1) :=
      blendSum_range hf2 (hwiden _ (hall (blends c C f0 f1 f2).left (by simp)))
        (hwiden _ (hall (blends c C f0 f1 f2).right (by simp)))
    have hunit := Cfg.unit_range hc
    have hbias := roundingBias_le hc
    refine ⟨hall, hlo, hhi, by linarith, by linarith, ?_⟩
    rintro rfl
    have hstandard : (2 ^ Cfg.standard.shiftBits : Int) = 32768 := by decide
    rw [hstandard] at hlo hhi
    rw [roundShift_standard]
    omega
  · have hall := blends_forall (Q := fun v => 0 ≤ v ∧ v ≤ 255 * 2 ^ c.precisionBits) f2 hf0 hf1 hC (fun _ hv => hv)
      fun a b f hf ha hb => lerp_mem hf ha hb
    obtain ⟨hlo, hhi⟩ : 0 * (2 ^ c.shiftBits - 1) ≤ (blends c C f0 f1 f2).acc ∧
        (blends c C f0 f1 f2).acc ≤ 255 * 2 ^ c.precisionBits * (2 ^ c.shiftBits - 1) :=
      blendSum_range hf2 (hall (blends c C f0 f1 f2).left (by simp)) (hall (blends c C f0 f1 f2).right (by simp))
    rw [zero_mul] at hlo
    exact ⟨hall, hlo, hhi, roundShift_mem hc hlo hhi⟩

/-! ### The rounding clipper -/

/-- Settles O38: the rounding of the second step is the bias at the accumulator's scale. -/
theorem twoStepRoundingAgrees : Obligations.TwoStepRoundingAgrees := by
  intro c acc _
  calc sar (sar acc c.shiftBits + precisionRounding c) c.precisionBits
      = sar (sar (acc + precisionRounding c * 2 ^ c.shiftBits) c.shiftBits) c.precisionBits := by rw [sar_add_mul]
    _ = sar (acc + precisionRounding c * 2 ^ c.shiftBits) (c.precisionBits + c.shiftBits) := by
      rw [sar_sar, Nat.add_comm]
    _ = roundShift c acc := by
      rw [roundShift, roundingBias]
      push_cast
      rfl

theorem clip_of_nonpos {v : Int} (h : v ≤ 0) : clip v = 0 := by
  rcases h.lt_or_eq with h | rfl
  · exact clip_of_neg h
  · rfl

theorem clip_of_ge {v : Int} (h : 255 ≤ v) : clip v = 255 := by
  rcases h.lt_or_eq with h | rfl
  · exact clip_of_gt h
  · rfl

/-- Settles O39: the shift and the clip are monotonic, and the thresholds are where the rounded value is 1 and 255. -/
theorem roundClipIsMonotonic : Obligations.RoundClipIsMonotonic := by
  intro c acc acc' _
  refine ⟨fun h => ?_, fun h => ?_, fun h => ?_⟩
  · have hclip := clip_mono (sar_mono (c.precisionBits + c.shiftBits) (Int.add_le_add_right h (roundingBias c)))
    have hsample := roundClip_toNat c acc
    have hsample' := roundClip_toNat c acc'
    unfold roundShift at hsample hsample'
    omega
  · have hround : roundShift c acc < 1 := sar_lt_iff.2 (by linarith)
    rw [roundClip, clip_of_nonpos (by omega)]
    rfl
  · have hround : 255 ≤ roundShift c acc := le_sar_iff.2 (by linarith)
    rw [roundClip, clip_of_ge hround]
    rfl

/-! ### Grid-corner exactness -/

/-- With all weight on the lowest corner both levels of blends take its value from equal ends. -/
theorem blends_corner_acc (c : Cfg) (C : Nat → Nat → Nat → Int) :
    (blends c C 0 0 0).acc =
      lerp c (lerp c (C 0 0 0) (C 0 0 0) 0) (lerp c (C 0 0 0) (C 0 0 0) 0) 0 * (2 ^ c.shiftBits - 1) := by
  calc (blends c C 0 0 0).acc = (blends c C 0 0 0).left * (2 ^ c.shiftBits - 1) := blendSum_zero c _ _
    _ = lerp c (lerp c (C 0 0 0) (C 1 0 0) 0) (lerp c (C 0 1 0) (C 1 1 0) 0) 0 * (2 ^ c.shiftBits - 1) := rfl
    _ = _ := by rw [lerp_zero c (lerp c _ _ 0) (lerp c _ _ 0), lerp_zero c (C 0 0 0) (C 1 0 0)]

/-- A blend of equal INT16 ends at the default configuration. -/
theorem lerp_same_standard {a : Int} (hlo : -32768 ≤ a) (hhi : a ≤ 32767) :
    (0 < a → lerp Cfg.standard a a 0 = a - 1) ∧
      (a ≤ 0 → -32768 ≤ lerp Cfg.standard a a 0 ∧ lerp Cfg.standard a a 0 ≤ 0) := by
  have hf : 0 ≤ 2 ^ Cfg.standard.shiftBits - 1 := Nat.zero_le _
  have hunit : (2 ^ Cfg.standard.shiftBits : Int) = 32768 := by decide
  refine ⟨fun hpos => lerp_same_pos hf (by omega) (by omega), fun hneg => ?_⟩
  rw [lerp_same hf, hunit]
  exact ⟨le_sar_iff.2 (by rw [hunit]; omega), Int.lt_add_one_iff.1 (sar_lt_iff.2 (by rw [hunit]; omega))⟩

/-- Taking 3 from the rounded value moves it across a level exactly in the three residues of the half-level tie. -/
theorem half_level_tie (t : Int) :
    (t + 29) / 64 = (t + 32) / 64 - if t % 64 = 32 ∨ t % 64 = 33 ∨ t % 64 = 34 then 1 else 0 := by
  split_ifs with htie
  · omega
  · rcases Int.lt_or_le (t % 64) 32 with h | h <;> omega

/-- Settles O40: two blends of equal ends take 2 from a value of at least 2, and the sum's missing unit one more. -/
theorem gridCornerExactness : Obligations.GridCornerExactness := by
  rintro C t rfl hlo hhi
  have hunit : (2 ^ Cfg.standard.shiftBits : Int) = 32768 := by decide
  rw [roundClip_toNat, roundShift_standard, blends_corner_acc, hunit]
  generalize C 0 0 0 = t at hlo hhi ⊢
  have hideal : sar (t + 32) 6 = (t + 32) / 64 := rfl
  rw [hideal]
  obtain ⟨hpos, hneg⟩ := lerp_same_standard hlo hhi
  rcases Int.lt_or_le 0 t with ht | ht
  · rw [hpos ht]
    rcases Int.lt_or_le 0 (t - 1) with ht2 | ht1
    · rw [(lerp_same_standard (a := t - 1) (by omega) (by omega)).1 ht2]
      have hround : ((t - 1 - 1) * (32768 - 1) + 1048576) / 2097152 = (t + 29) / 64 := by omega
      rw [hround]
      rcases Int.lt_or_le t 16320 with hlevel | hsat
      · rw [clip_of_mem (by omega) (by omega), clip_of_mem (by omega) (by omega), half_level_tie]
        simp only [ht, hlevel, true_and]
      · rw [clip_of_ge (by omega), clip_of_ge (by omega), if_neg (by omega)]
        rfl
    · obtain rfl : t = 1 := by omega
      have hzero : lerp Cfg.standard (1 - 1) (1 - 1) 0 = 0 := lerp_same_zero (Nat.zero_le _)
      rw [hzero]
      rfl
  · have hfirst := hneg ht
    have hsecond := (lerp_same_standard (a := lerp Cfg.standard t t 0) (by omega) (by omega)).2 (by omega)
    rw [clip_of_nonpos (by omega), clip_of_nonpos (by omega), if_neg (by omega)]
    rfl

end Sys2Proof.Machine
end

section
/-! PROOFS. Writes and reads of the registers in every STATE, unwritten registers, the reset values and POLL
(10_state.md R25, R28, R29, R37; 30_encoding.md R87). -/

namespace Sys2Proof.Machine

/-! ### Writes -/

/-- Settles O10: the write makes the register written, and a read of a written register returns what it holds. -/
theorem descriptorWriteReadsBack : Obligations.DescriptorWriteReadsBack := by
  intro s r v rest hb hm
  have hwrite := step_regWrite_desc (Reg.ofOffset_offset (.desc r)) hb hm
  have hread := runSteps_next (n := 0) (step_regRead (s := { s with
      desc := s.desc.set r v, written := s.written.set r true, moves := .regRead (Reg.offset (.desc r)) :: rest })
    (Reg.ofOffset_offset (.desc r)) rfl)
  rw [State.readReg, State.descValue_written _ _ (Bank.get_set_same ..), Bank.get_set_same] at hread
  exact ⟨_, (runSteps_next hwrite).trans hread, rfl, Bank.get_set_same .., Bank.get_set_same ..,
    fun q hq => ⟨Bank.get_set_ne _ _ _ _ hq, Bank.get_set_ne _ _ _ _ hq⟩, rfl⟩

theorem State.writeCmd_busy {s : State} (hb : s.state = .busy) (w : Word) : s.writeCmd w = .next s := by
  cases hd : decode w with
  | ok i => rw [State.writeCmd_of_decode hd, exec_busy hb]
  | error e => simp only [State.writeCmd, hd]

/-- While BUSY every register write is ignored (10_state.md R29). -/
theorem State.regWrite_busy {s : State} (hb : s.state = .busy) (r : Reg) (v : Word) :
    s.regWrite r.offset v = .next s := by
  have ho := Reg.ofOffset_offset r
  cases r with
  | cmd => rw [State.regWrite_cmd ho, State.writeCmd_busy hb]
  | desc q => rw [State.regWrite_desc ho, s.writeDesc_busy q v hb]
  | status => exact State.regWrite_readOnly ho (.inl rfl)
  | params => exact State.regWrite_readOnly ho (.inr (.inl rfl))
  | scale a => exact State.regWrite_readOnly ho (.inr (.inr ⟨a, rfl⟩))

/-! ### Reads -/

/-- A read of a register by its own offset. -/
theorem step_regRead_offset {s : State} {r : Reg} {rest : List Move} {w : Word}
    (h : s.moves = .regRead r.offset :: rest) (hw : s.readReg r = w) : step s = .next { s with moves := rest, readData := w } := by
  rw [step_regRead (Reg.ofOffset_offset r) h, hw]

/-- Settles O11: writes by `State.regWrite_busy`, reads by what each kind of register holds. -/
theorem writesWhileBusyAreDropped : Obligations.WritesWhileBusyAreDropped := by
  intro s r v rest
  refine ⟨fun hb h => ?_, ?_, fun h => ⟨_, step_regRead_offset h rfl⟩, ?_, ?_, fun h => ⟨?_, ?_, ?_⟩⟩
  · rw [step_regWrite h, State.regWrite_busy (s := s.withMoves rest) hb]
    rfl
  · rintro q rfl hb h
    exact step_regWrite_desc (Reg.ofOffset_offset _) hb h
  · rintro q rfl hw h
    exact step_regRead_offset h (s.descValue_written q hw)
  · rintro a rfl hw h
    exact step_regRead_offset h (s.scaleValue_written a hw)
  all_goals
    rintro rfl
    exact step_regRead_offset h rfl

/-- Settles O14: before it is written a register holds its free value. -/
theorem unwrittenRegistersReadAFreeValue : Obligations.UnwrittenRegistersReadAFreeValue :=
  fun s _ => ⟨fun q hw h => step_regRead_offset h (s.descValue_unwritten q hw),
    fun a hw h => step_regRead_offset h (s.scaleValue_unwritten a hw)⟩

/-- Settles O54: the reset state's fields, and the reads of registers that hold nothing yet. -/
theorem resetValues : Obligations.ResetValues := by
  have hunwritten (q : DReg) : State.reset.written.get q = false := Bank.get_uniform false q
  refine ⟨rfl, rfl, rfl, rfl, fun rest => ?_, fun rest => ?_, hunwritten, rfl, fun q rest => ?_, fun a rest => ?_⟩
  · exact step_regRead_offset (r := .cmd) rfl rfl
  · exact step_regRead_offset (r := .params) rfl rfl
  · exact (unwrittenRegistersReadAFreeValue { State.reset with moves := _ } rest).1 q (hunwritten q) rfl
  · exact (unwrittenRegistersReadAFreeValue { State.reset with moves := _ } rest).2 a rfl rfl

/-! ### POLL -/

theorem State.poll_notBusy {s : State} (hb : s.state ≠ .busy) :
    s.poll = s.returnToHost (statusWord s.state s.err) := if_neg hb

theorem State.poll_busy {s : State} (hb : s.state = .busy) :
    s.poll = (s.returnToHost (statusWord s.state s.err)).withMoves (.sampler none :: .poll :: s.moves) := if_pos hb

/-- Settles O60: a poll is a read of STATUS, made again after a step of the sampler while it returns BUSY. -/
theorem pollReadsStatusUntilNotBusy : Obligations.PollReadsStatusUntilNotBusy := by
  intro s rest h
  have hstep : step s = .next (s.withMoves rest).poll := step_move s _ rest h
  exact ⟨fun hb => hstep.trans (congrArg _ (State.poll_notBusy (s := s.withMoves rest) hb)),
    fun hb => hstep.trans (congrArg _ (State.poll_busy (s := s.withMoves rest) hb))⟩

end Sys2Proof.Machine
end

section
/-! PROOFS. The commands: what starts a job, what follows an error, and what no command changes (40_transform_command.md
R105; 60_exceptions.md R189, R192). -/

namespace Sys2Proof.Machine

/-- Every byte of an empty image is inside PIX, and no two of its pixels meet. -/
theorem preconditions_of_empty {d : Descriptor} (h : d.W = 0 ∨ d.H = 0) (c : Cfg) : p4 c d = true ∧ p5 d = true := by
  rcases h with h | h <;> simp [p4, p5, h]

/-- A fresh job of an empty image is finished. -/
theorem freshJob_finished {s : State} (h : s.desc.W = 0 ∨ s.desc.H = 0) :
    ∀ x ∈ s.freshJob.cur, s.freshJob.latched.W ≤ x := by
  intro x hx
  obtain ⟨hH, -⟩ := List.mem_replicate.1 hx
  have hW : s.desc.W = 0 := h.resolve_right hH
  exact hW.trans_le (Nat.zero_le x)

/-- Settles O21: the answer is `State.startJob`, whose job is finished at once when its image is empty. -/
theorem xformStartsTheJob : Obligations.XformStartsTheJob := by
  refine ⟨fun s hc hs => ?_, fun c d h => preconditions_of_empty h c⟩
  refine ⟨s.startJob, hs.exec_xform_eq, rfl, rfl, rfl, s.startJob_scale hc hs.gridSizesLegal,
    ⟨_, rfl, List.length_replicate, fun y hy => List.getElem?_replicate_of_lt hy⟩, rfl, fun hempty => ?_⟩
  have hdone : (s.startJob.withMoves []).samplerStep none = (s.startJob.withMoves []).completionStep :=
    State.samplerStep_finished (j := s.freshJob) rfl rfl (freshJob_finished hempty)
  exact (step_noMoves (s.startJob.withMoves []) rfl).trans (congrArg Host.Outcome.next hdone)

/-- Settles O22: by the rules for a state outside BUSY and for XFORM and ACK in FAILED. -/
theorem afterAnError : Obligations.AfterAnError := by
  intro s q v row rest hfailed
  have hb : s.state ≠ .busy := by simp [hfailed]
  exact ⟨step_notBusy_noMoves hb, step_notBusy_sampler hb, step_regWrite_desc (Reg.ofOffset_offset _) hb,
    fun hs => ⟨_, hs.exec_xform_eq, rfl, rfl⟩, exec_ack_finished (.inr hfailed)⟩

/-- A command changes at most STATUS, SCALE0..2 and the job. -/
theorem exec_frame {i : Instr} {s t : State} (h : exec i s = .next t) :
    t = { s with
      state := t.state, err := t.err, scale0 := t.scale0, scale1 := t.scale1, scale2 := t.scale2,
      scaleWritten := t.scaleWritten, job := t.job } := by
  rcases exec_next h with rfl | ⟨-, -, -, rfl⟩ | ⟨-, -, -, -, -, rfl⟩ | ⟨-, -, rfl⟩ <;> rfl

/-- A command that is no XFORM accepted without an error changes at most STATUS. -/
theorem exec_keeps_job {i : Instr} {s t : State} (h : exec i s = .next t)
    (hi : i ≠ .xform ∨ s.state = .busy ∨ t.err ≠ .noError) : SameScale s t ∧ t.job = s.job := by
  rcases exec_next h with rfl | ⟨-, -, -, rfl⟩ | ⟨hx, hb, -, -, -, rfl⟩ | ⟨-, -, rfl⟩
  · exact ⟨.refl _, rfl⟩
  · exact ⟨⟨rfl, s.enterError_scale _⟩, rfl⟩
  · rcases hi with hi | hi | hi
    · exact absurd hx hi
    · exact absurd hi hb
    · exact absurd rfl hi
  · exact ⟨⟨rfl, s.returnToIdle_scale⟩, rfl⟩

/-- Settles O23: the frame of every command, and the smaller one of a command that starts no job. -/
theorem commandFrame : Obligations.CommandFrame := by
  intro i s t h
  have hbusy : s.state = .busy → t = s := by
    intro hb
    cases (exec_busy hb).symm.trans h
    rfl
  have hnop : i = .nop → t = s := by
    rintro rfl
    cases (exec_nop s).symm.trans h
    rfl
  have hjob := fun hi => exec_keeps_job h hi
  rw [exec_frame h]
  exact ⟨rfl, fun _ => ⟨rfl, rfl⟩, fun _ => rfl, fun _ => rfl, rfl, rfl, rfl, rfl,
    fun hi => ⟨(hjob hi).1.1, (hjob hi).1.2, (hjob hi).2⟩, fun hb => by rw [← exec_frame h, hbusy hb],
    fun hi => by rw [← exec_frame h, hnop hi]⟩

end Sys2Proof.Machine
end

section
/-! PROOFS. Which moves change what: the registers, STATUS and its error code, TBL and PIX (10_state.md R28, R34;
60_exceptions.md R185). -/

namespace Sys2Proof.Machine

@[simp] theorem State.poll_state (s : State) : s.poll.state = s.state := by rw [s.poll_frame]
@[simp] theorem State.poll_err (s : State) : s.poll.err = s.err := by rw [s.poll_frame]
@[simp] theorem State.poll_desc (s : State) : s.poll.desc = s.desc := by rw [s.poll_frame]
@[simp] theorem State.poll_written (s : State) : s.poll.written = s.written := by rw [s.poll_frame]
@[simp] theorem State.poll_pix (s : State) : s.poll.pix = s.pix := by rw [s.poll_frame]
@[simp] theorem State.poll_tbl (s : State) : s.poll.tbl = s.tbl := by rw [s.poll_frame]
@[simp] theorem State.poll_resets (s : State) : s.poll.resets = s.resets := by rw [s.poll_frame]

/-! ### The registers -/

/-- The descriptor registers, which of them are written, and the free values of the others are the same in both
states. -/
def SameDescriptor (s t : State) : Prop := t.desc = s.desc ∧ t.written = s.written ∧ t.resets = s.resets

theorem exec_sameDescriptor {i : Instr} {s t : State} (h : exec i s = .next t) : SameDescriptor s t := by
  rw [exec_frame h]
  exact ⟨rfl, rfl, rfl⟩

theorem State.samplerStep_sameDescriptor (s : State) (row : Option Nat) : SameDescriptor s (s.samplerStep row) :=
  ⟨by simp, by simp, by simp⟩

/-- A move leaves the descriptor registers alone, or it is a reset or a host's write of one outside BUSY. -/
theorem State.runMove_descriptor {s t : State} {m : Move} (h : s.runMove m = .next t) :
    SameDescriptor s t ∨ (∃ torn, m = .reset torn) ∨
      t.resets = s.resets ∧ ∃ off v q, m = .regWrite off v ∧ Reg.ofOffset off = some (.desc q) ∧ s.state ≠ .busy := by
  rcases State.runMove_next h with ⟨_, _, i, -, -, -, he⟩ | ⟨off, v, q, rfl, ho, rfl⟩ | ⟨_, _, -, rfl⟩ |
    ⟨v, -, rfl⟩ | ⟨a, -, -, rfl⟩ | ⟨a, v, -, -, ⟨-, rfl⟩ | ⟨-, rfl⟩⟩ | ⟨o, v, -, -, ⟨-, rfl⟩ | ⟨-, rfl⟩⟩ |
    ⟨-, rfl⟩ | ⟨row, -, rfl⟩ | ⟨torn, hm, -⟩
  · exact .inl (exec_sameDescriptor he)
  · by_cases hb : s.state = .busy
    · rw [s.writeDesc_busy q v hb]
      exact .inl ⟨rfl, rfl, rfl⟩
    · exact .inr (.inr ⟨s.writeDesc_resets q v, off, v, q, rfl, ho, hb⟩)
  case inr.inr.inr.inr.inr.inr.inr.inr.inr => exact .inr (.inl ⟨torn, hm⟩)
  all_goals exact .inl ⟨by simp, by simp, by simp⟩

/-- A move leaves STATUS alone, or it is a command, the completion step or a reset. -/
theorem State.runMove_status {s t : State} {m : Move} (h : s.runMove m = .next t) :
    (t.state = s.state ∧ t.err = s.err) ∨
      (∃ w i, m = .regWrite 0x00 w ∧ decode w = .ok i ∧ exec i s = .next t) ∨
      (s.state = .busy ∧ t.state = .done ∧ t.err = .noError ∧ ∃ row, m = .sampler row) ∨
      (t.err = .noError ∧ ∃ torn, m = .reset torn) := by
  rcases State.runMove_next h with ⟨off, w, i, rfl, ho, hd, he⟩ | ⟨_, v, q, -, -, rfl⟩ | ⟨_, _, -, rfl⟩ |
    ⟨v, -, rfl⟩ | ⟨a, -, -, rfl⟩ | ⟨a, v, -, -, ⟨-, rfl⟩ | ⟨-, rfl⟩⟩ | ⟨o, v, -, -, ⟨-, rfl⟩ | ⟨-, rfl⟩⟩ |
    ⟨-, rfl⟩ | ⟨row, hm, rfl⟩ | ⟨torn, hm, rfl⟩
  · obtain rfl : off = 0x00 := Reg.eq_offset_of_ofOffset ho
    exact .inr (.inl ⟨w, i, rfl, hd, he⟩)
  case inr.inr.inr.inr.inr.inr.inr.inr.inl =>
    rcases s.samplerStep_status row with hsame | ⟨hb, hdone, herr⟩
    · exact .inl hsame
    · exact .inr (.inr (.inl ⟨hb, hdone, herr, row, hm⟩))
  case inr.inr.inr.inr.inr.inr.inr.inr.inr => exact .inr (.inr (.inr ⟨rfl, torn, hm⟩))
  all_goals exact .inl ⟨by simp, by simp⟩

/-- A step changes a descriptor register, or what a read of one returns, only as R28 says. -/
theorem step_descriptor {s t : State} (h : step s = .next t) :
    SameDescriptor s t ∨
      (∃ off v q rest, s.moves = .regWrite off v :: rest ∧ Reg.ofOffset off = some (.desc q) ∧ s.state ≠ .busy) ∨
        ∃ torn rest, s.moves = .reset torn :: rest := by
  rcases step_next h with ⟨-, rfl⟩ | ⟨m, rest, hm, hrun⟩
  · exact .inl (s.samplerStep_sameDescriptor none)
  · rcases State.runMove_descriptor hrun with hsame | ⟨torn, rfl⟩ | ⟨-, off, v, q, rfl, ho, hb⟩
    · exact .inl hsame
    · exact .inr (.inr ⟨torn, rest, hm⟩)
    · exact .inr (.inl ⟨off, v, q, rest, hm, ho, hb⟩)

/-- A step changes STATUS only as R28 says. -/
theorem step_status {s t : State} (h : step s = .next t) :
    (t.state = s.state ∧ t.err = s.err) ∨
      (∃ w i rest, s.moves = .regWrite 0x00 w :: rest ∧ decode w = .ok i ∧ exec i (s.withMoves rest) = .next t) ∨
      (s.state = .busy ∧ t.state = .done ∧ t.err = .noError ∧
        (s.moves = [] ∨ ∃ row rest, s.moves = .sampler row :: rest)) ∨
      (t.err = .noError ∧ ∃ torn rest, s.moves = .reset torn :: rest) := by
  rcases step_next h with ⟨hm, rfl⟩ | ⟨m, rest, hm, hrun⟩
  · exact (s.samplerStep_status none).imp id fun ⟨hb, hd, he⟩ => .inr (.inl ⟨hb, hd, he, .inl hm⟩)
  · rcases State.runMove_status hrun with hsame | ⟨w, i, rfl, hd, he⟩ | ⟨hb, hdone, herr, row, rfl⟩ | ⟨herr, torn, rfl⟩
    · exact .inl hsame
    · exact .inr (.inl ⟨w, i, rest, hm, hd, he⟩)
    · exact .inr (.inr (.inl ⟨hb, hdone, herr, .inr ⟨row, rest, hm⟩⟩))
    · exact .inr (.inr (.inr ⟨herr, torn, rest, hm⟩))

/-- A step changes a SCALE register, or what a read of one returns, only as R28 says. -/
theorem step_scale {s t : State} (h : step s = .next t) :
    (SameScale s t ∧ t.resets = s.resets) ∨
      (∃ rest, s.moves = .regWrite 0x00 0x00000001#32 :: rest) ∨ ∃ torn rest, s.moves = .reset torn :: rest := by
  rcases step_next h with ⟨-, rfl⟩ | ⟨m, rest, hm, hrun⟩
  · exact .inl ⟨⟨by simp, by simp⟩, by simp⟩
  · rcases State.runMove_scale hrun with ⟨hsw, hsc⟩ | ⟨torn, rfl⟩ | ⟨rfl, -⟩
    · have hresets : t.resets = s.resets ∨ ∃ torn, m = .reset torn := by
        rcases State.runMove_descriptor hrun with ⟨-, -, hr⟩ | hreset | ⟨hr, -⟩
        · exact .inl hr
        · exact .inr hreset
        · exact .inl hr
      rcases hresets with hr | ⟨torn, rfl⟩
      · exact .inl ⟨⟨hsw, fun a => (hsc a).trans (s.withMoves_scale rest a)⟩, hr⟩
      · exact .inr (.inr ⟨torn, rest, hm⟩)
    · exact .inr (.inr ⟨torn, rest, hm⟩)
    · exact .inr (.inl ⟨rest, hm⟩)

/-- Settles O12: one lemma for each group of registers, and the rule for a register read. -/
theorem registersChangeOnlyBy : Obligations.RegistersChangeOnlyBy := by
  intro s t h
  refine ⟨fun hchange => ?desc, fun hchange => ?status, fun hchange => ?scale, fun off rest hm => ?read⟩
  case desc =>
    rcases step_descriptor h with ⟨hd, hw, hr⟩ | hcause
    · rcases hchange with hne | ⟨q, hne⟩
      · exact absurd hd hne
      · exact absurd (State.readReg_desc_congr hd hw hr q) hne
    · exact hcause
  case status =>
    rcases step_status h with ⟨hstate, herr⟩ | ⟨w, i, rest, hm, hd, -⟩ | ⟨hb, hdone, -, hm⟩ | ⟨-, hreset⟩
    · rcases hchange with hne | hne
      · exact absurd hstate hne
      · exact absurd herr hne
    · exact .inl ⟨w, i, rest, hm, hd⟩
    · exact .inr (.inl ⟨hb, hdone, hm⟩)
    · exact .inr (.inr hreset)
  case scale =>
    rcases step_scale h with ⟨⟨hsw, hsc⟩, hr⟩ | hcause
    · obtain ⟨a, hne | hne⟩ := hchange
      · exact absurd (hsc a) hne
      · exact absurd (State.readReg_scale_congr (hsc a) hsw hr) hne
    · exact hcause
  case read =>
    rw [step_move s _ rest hm] at h
    obtain ⟨r, -, rfl⟩ := State.regRead_next h
    rfl

/-! ### The error code -/

/-- Only an XFORM raises an error, and does nothing else then. -/
theorem exec_newError {i : Instr} {s t : State} (h : exec i s = .next t) (hne : t.err ≠ .noError)
    (hnew : t.err ≠ s.err) : i = .xform ∧ s.state ≠ .busy ∧ t = s.enterError t.err := by
  rcases exec_next h with rfl | ⟨hi, hb, -, rfl⟩ | ⟨-, -, -, -, -, rfl⟩ | ⟨-, -, rfl⟩
  · exact absurd rfl hnew
  · exact ⟨hi, hb, rfl⟩
  · exact absurd rfl hne
  · exact absurd rfl hne

/-- The next state of a step of the sampler, chosen or by the reference schedule, raises no error. -/
theorem State.samplerStep_noNewError (s : State) (row : Option Nat) (hne : (s.samplerStep row).err ≠ .noError) :
    (s.samplerStep row).err = s.err := by
  rcases s.samplerStep_status row with ⟨-, herr⟩ | ⟨-, -, herr⟩
  · exact herr
  · exact absurd herr hne

/-- Settles O19: of what changes STATUS only a command can raise an error, and of the commands only XFORM. -/
theorem onlyXformRaisesAnError : Obligations.OnlyXformRaisesAnError := by
  constructor
  · intro s t h hne hnew
    refine ⟨?_, ?_⟩
    · cases he : t.err with
      | noError => exact absurd he hne
      | invalidArgument => exact .inl rfl
      | modeMismatch => exact .inr rfl
    · rcases step_status h with ⟨-, herr⟩ | ⟨w, i, rest, hm, hd, he⟩ | ⟨-, -, herr, -⟩ | ⟨herr, -⟩
      · exact absurd herr hnew
      · obtain ⟨rfl, hb, ht⟩ := exec_newError he hne hnew
        obtain rfl : w = 0x00000001#32 := eq_encode_of_decode hd
        exact ⟨rest, hm, hb, ht⟩
      · exact absurd herr hne
      · exact absurd herr hne
  · rintro s (hm | ⟨row, rest, hm⟩)
    · exact ⟨_, step_noMoves s hm, s.samplerStep_noNewError none⟩
    · exact ⟨_, step_sampler hm, (s.withMoves rest).samplerStep_noNewError row⟩

/-! ### The memories -/

/-- A store to TBL that breaks the host's duties is one to a running job's table. -/
theorem State.inTable_of_mayWriteTbl {s : State} {o : Nat} (h : s.mayWriteTbl o = false) :
    s.state = .busy ∧ ∃ j, s.job = some j ∧ InTable j.latched o := by
  by_cases hb : s.state = .busy
  · refine ⟨hb, ?_⟩
    cases hj : s.job with
    | none => simp [State.mayWriteTbl, State.running, hb, hj] at h
    | some j =>
      refine ⟨j, rfl, ?_⟩
      by_contra hout
      rw [(State.mayWriteTbl_busy hb hj o).2 hout] at h
      cases h
  · rw [(State.may_notBusy hb o).2.2] at h
    cases h

/-- A command changes no memory. -/
theorem exec_keeps_memories {i : Instr} {s t : State} (h : exec i s = .next t) : t.pix = s.pix ∧ t.tbl = s.tbl := by
  rw [exec_frame h]
  exact ⟨rfl, rfl⟩

theorem State.runMove_tbl {s t : State} {m : Move} (h : s.runMove m = .next t) :
    t.tbl = s.tbl ∨ ∃ o v, m = .tblWrite o v := by
  rcases State.runMove_next h with ⟨_, _, i, -, -, -, he⟩ | ⟨_, v, q, -, -, rfl⟩ | ⟨_, _, -, rfl⟩ |
    ⟨v, -, rfl⟩ | ⟨a, -, -, rfl⟩ | ⟨a, v, -, -, ⟨-, rfl⟩ | ⟨-, rfl⟩⟩ | ⟨o, v, hm, -, -⟩ |
    ⟨-, rfl⟩ | ⟨row, -, rfl⟩ | ⟨torn, -, rfl⟩
  · exact .inl (exec_keeps_memories he).2
  case inr.inr.inr.inr.inr.inr.inl => exact .inr ⟨o, v, hm⟩
  all_goals exact .inl (by simp)

/-- What can change PIX: a store of the host, and while BUSY the sampler, a reset and a store to the job's table. -/
theorem State.runMove_pix {s t : State} {m : Move} (h : s.runMove m = .next t) :
    t.pix = s.pix ∨ (∃ a v, m = .pixWrite a v) ∨
      s.state = .busy ∧
        ((∃ row, m = .sampler row) ∨ (∃ torn, m = .reset torn) ∨
          ∃ j o e, s.job = some j ∧ InTable j.latched o ∧ m = .tblWrite o e) := by
  rcases State.runMove_next h with ⟨_, _, i, -, -, -, he⟩ | ⟨_, v, q, -, -, rfl⟩ | ⟨_, _, -, rfl⟩ |
    ⟨v, -, rfl⟩ | ⟨a, -, -, rfl⟩ | ⟨a, v, hm, -, -⟩ | ⟨o, v, hm, -, ⟨-, rfl⟩ | ⟨hmay, rfl⟩⟩ |
    ⟨-, rfl⟩ | ⟨row, hm, rfl⟩ | ⟨torn, hm, rfl⟩
  · exact .inl (exec_keeps_memories he).1
  case inr.inr.inr.inr.inr.inl => exact .inr (.inl ⟨a, v, hm⟩)
  case inr.inr.inr.inr.inr.inr.inl.inr =>
    obtain ⟨hb, j, hj, hin⟩ := State.inTable_of_mayWriteTbl hmay
    exact .inr (.inr ⟨hb, .inr (.inr ⟨j, o, v, hj, hin, hm⟩)⟩)
  case inr.inr.inr.inr.inr.inr.inr.inr.inl =>
    by_cases hb : s.state = .busy
    · exact .inr (.inr ⟨hb, .inl ⟨row, hm⟩⟩)
    · exact .inl (by rw [s.samplerStep_notBusy row hb])
  case inr.inr.inr.inr.inr.inr.inr.inr.inr =>
    by_cases hb : s.state = .busy
    · exact .inr (.inr ⟨hb, .inr (.inl ⟨torn, hm⟩)⟩)
    · exact .inl (State.resetEvent_pix_notBusy hb torn)
  all_goals exact .inl (by simp)

/-- Settles O59: what a move can change of TBL and of PIX, and what the sampler and a store to PIX leave alone. -/
theorem spacesAreDisjoint : Obligations.SpacesAreDisjoint := by
  intro s t h
  rcases step_next h with ⟨hm, rfl⟩ | ⟨m, rest, hm, hrun⟩
  · refine ⟨fun hne => absurd (s.samplerStep_tbl none) hne, fun hne => .inr ⟨?_, .inl hm⟩,
      fun _ => ⟨by simp, by simp, by simp, by simp⟩⟩
    by_contra hb
    exact hne (by rw [s.samplerStep_notBusy none hb])
  · refine ⟨fun hne => ?tbl, fun hne => ?pix, fun hcause => ?registers⟩
    case tbl =>
      obtain ⟨o, v, rfl⟩ := (State.runMove_tbl hrun).resolve_left hne
      exact ⟨o, v, rest, hm⟩
    case pix =>
      rcases (State.runMove_pix hrun).resolve_left hne with ⟨a, v, rfl⟩ | ⟨hb, hcause⟩
      · exact .inl ⟨a, v, rest, hm⟩
      · refine .inr ⟨hb, .inr ?_⟩
        rcases hcause with ⟨row, rfl⟩ | ⟨torn, rfl⟩ | ⟨j, o, e, hj, hin, rfl⟩
        · exact .inl ⟨row, rest, hm⟩
        · exact .inr (.inl ⟨torn, rest, hm⟩)
        · exact .inr (.inr ⟨j, o, e, rest, hj, hin, hm⟩)
    case registers =>
      obtain ⟨hreset, hwrite⟩ : (∀ torn, m ≠ .reset torn) ∧ ∀ off v, m ≠ .regWrite off v := by
        rcases hcause with h | ⟨row, _, h⟩ | ⟨a, v, _, h⟩ <;> cases hm.symm.trans h <;> exact ⟨nofun, nofun⟩
      obtain ⟨hdesc, hwritten, -⟩ : SameDescriptor s t := by
        rcases State.runMove_descriptor hrun with hsame | ⟨torn, hm⟩ | ⟨-, off, v, -, hm, -⟩
        · exact hsame
        · exact absurd hm (hreset torn)
        · exact absurd hm (hwrite off v)
      obtain ⟨hsw, hsc⟩ : SameScale (s.withMoves rest) t := by
        rcases State.runMove_scale hrun with hsame | ⟨torn, hm⟩ | ⟨hm, -⟩
        · exact hsame
        · exact absurd hm (hreset torn)
        · exact absurd hm (hwrite _ _)
      exact ⟨hdesc, hwritten, hsw, fun a => (hsc a).trans (s.withMoves_scale rest a)⟩

end Sys2Proof.Machine
end

section
/-! PROOFS. The memories: safe images, the bytes a reset leaves, and the host's loads and stores (20_memory.md R50, R53,
R62, R64; 70_reset_and_hazards.md R210, R211, R214). -/

namespace Sys2Proof.Machine

/-! ### Safe images -/

/-- Settles O53: exact aliasing is the model's first shape; otherwise the output's pixels are apart by their strides. -/
theorem aliasedAndDisjointImagesAreSafe : Obligations.AliasedAndDisjointImagesAreSafe := by
  intro d _
  constructor
  · intro hbase hps hrs hin hout hrow
    apply noHazard_of_aliasesExactly
    simp [aliasesExactly, Bank.base, Bank.pstride, Bank.rstride, ← hbase, ← hps, ← hrs, hin, hout, hrow]
  · intro hdisjoint _ _ hps hrow y x v u hy hx hv hu hne
    refine ⟨fun c b hc hb he => ?_, fun c b hc hb => ?_⟩
    · exact hdisjoint _ ⟨y, x, c, hy, hx, hc, rfl⟩ ⟨v, u, b, hv, hu, hb, he⟩
    · have hapart := pixels_apart _ _ _ y x v u hrow hx hu hne
      simp only [sampleAddr, Bank.base, Bank.pstride, Bank.rstride]
      omega

/-! ### The reset event -/

theorem State.resetEvent_pix_notTorn (s : State) : (s.resetEvent []).pix = s.pix := by
  unfold State.resetEvent
  cases s.state <;> cases s.job <;> rfl

theorem step_reset {s : State} {torn : List (Nat × List Nat)} {rest : List Move} (h : s.moves = .reset torn :: rest) :
    step s = .next ((s.withMoves rest).resetEvent torn) := step_move s _ rest h

/-- Settles O55: the fields that the reset event sets, and PIX where no write-back is in flight. -/
theorem resetEventRestoresTheBlock : Obligations.ResetEventRestoresTheBlock := by
  intro s torn rest h
  refine ⟨_, step_reset h, rfl, rfl, Bank.get_uniform false, rfl, rfl, rfl, rfl, rfl, ?_,
    step_notBusy_noMoves nofun rfl⟩
  rintro (rfl | hb)
  · exact (s.withMoves rest).resetEvent_pix_notTorn
  · exact State.resetEvent_pix_notBusy (s := s.withMoves rest) hb torn

/-- Settles O56: each byte is old or a band of a pixel in flight, which holds what `State.pixelByte` gives it. -/
theorem resetMidJobLeavesAMixture : Obligations.ResetMidJobLeavesAMixture := by
  intro s j torn rest hwf hb hj h
  refine ⟨_, step_reset h, rfl, rfl, rfl, rfl, fun a => ?_⟩
  rw [State.resetEvent_pix_busy (s := s.withMoves rest) hb hj]
  refine (read_tornWrites j _ torn s.pix hwf a).imp id ?_
  rintro ⟨y, x, ch, hc, hx, hch, rfl, hread⟩
  exact ⟨y, x, ch, hc, hx, hch, rfl, hread⟩

/-! ### The host's loads and stores -/

section Access

variable {s : State} {a : Nat} {rest : List Move}

theorem step_pixWrite_beyond {v : Byte} (ha : 2 ^ s.cfg.addrBits ≤ a) (h : s.moves = .pixWrite a v :: rest) :
    step s = .fault (.noSuchPixByte a) := (step_move s _ rest h).trans (if_pos ha)

theorem step_pixRead_beyond (ha : 2 ^ s.cfg.addrBits ≤ a) (h : s.moves = .pixRead a :: rest) :
    step s = .fault (.noSuchPixByte a) := (step_move s _ rest h).trans (if_pos ha)

theorem step_tblWrite_beyond {e : Elem} (ha : s.cfg.tblCapacity ≤ a) (h : s.moves = .tblWrite a e :: rest) :
    step s = .fault (.noSuchTblElement a) := (step_move s _ rest h).trans (if_pos ha)

theorem step_tblRead_beyond (ha : s.cfg.tblCapacity ≤ a) (h : s.moves = .tblRead a :: rest) :
    step s = .fault (.noSuchTblElement a) := (step_move s _ rest h).trans (if_pos ha)

theorem step_pixWrite {v : Byte} (ha : a < 2 ^ s.cfg.addrBits) (h : s.moves = .pixWrite a v :: rest) :
    step s = .next (if (s.withMoves rest).mayWritePix a then (s.withMoves rest).storePix a v
      else ((s.withMoves rest).storePix a v).disturb) :=
  (step_move s _ rest h).trans (if_neg (Nat.not_le.2 ha))

theorem step_pixRead (ha : a < 2 ^ s.cfg.addrBits) (h : s.moves = .pixRead a :: rest) :
    step s = .next (if (s.withMoves rest).mayReadPix a
      then (s.withMoves rest).returnToHost ((Memory.read s.pix a).setWidth 32)
      else (s.withMoves rest).returnOpenByte a) :=
  (step_move s _ rest h).trans (if_neg (Nat.not_le.2 ha))

theorem step_tblWrite {e : Elem} (ha : a < s.cfg.tblCapacity) (h : s.moves = .tblWrite a e :: rest) :
    step s = .next (if (s.withMoves rest).mayWriteTbl a then (s.withMoves rest).storeTbl a e
      else ((s.withMoves rest).storeTbl a e).disturb) :=
  (step_move s _ rest h).trans (if_neg (Nat.not_le.2 ha))

/-- A load of an element of TBL is made in every STATE. -/
theorem step_tblRead (ha : a < s.cfg.tblCapacity) (h : s.moves = .tblRead a :: rest) :
    step s = .next { s with moves := rest, readData := (Memory.read s.tbl a).signExtend 32 } :=
  (step_move s _ rest h).trans (if_neg (Nat.not_le.2 ha))

end Access

section Busy

variable {s : State} {j : Job} (hb : s.state = .busy) (hj : s.job = some j)

include hb hj

/-- PIX after a breach of the duties towards a running job: its output bytes are open, the others as the store left
them (93_implementation_defined.md U6). -/
theorem State.read_disturb (hwf : Memory.wf s.pix = true) (b : Nat) :
    (IsWritten j.latched b → Memory.read s.disturb.pix b = Config.openByte s.draws b) ∧
      (¬ IsWritten j.latched b → Memory.read s.disturb.pix b = Memory.read s.pix b) := by
  rw [State.disturb_busy hb hj]
  exact read_writeOutput _ _ _ hwf b

theorem State.disturb_eq :
    s.disturb = { s with pix := s.disturb.pix, job := some { j with disturbed := true }, draws := s.draws + 1 } := by
  rw [State.disturb_busy hb hj]

end Busy

/-- Settles O57: the host's duties decide between the access as ever, an open byte and a breach. -/
theorem hostDutiesWhileBusy : Obligations.HostDutiesWhileBusy := by
  intro s j a o v e rest hb hj hwf ha ho
  have hmayWrite := State.mayWritePix_busy (s := s.withMoves rest) hb hj a
  have hmayRead := State.mayReadPix_busy (s := s.withMoves rest) hb hj a
  have hmayTbl := State.mayWriteTbl_busy (s := s.withMoves rest) hb hj o
  refine ⟨fun hjob h => ?breachPix, fun hw h => ?openByte, fun hin h => ?breachTbl, fun hnr hnw h => ?store,
    fun hnw h => ?load, fun hout h => ?storeTbl, step_tblRead ho⟩
  case breachPix =>
    have hread := State.read_disturb (s := (s.withMoves rest).storePix a v) hb hj (Memory.wf_write _ _ _ hwf)
    have hframe := State.disturb_eq (s := (s.withMoves rest).storePix a v) hb hj
    refine ⟨((s.withMoves rest).storePix a v).disturb, ?_, hframe, fun b => (hread b).1, fun hnw => ((hread a).2 hnw).trans (Memory.read_write_same _ _ _ hwf),
      fun b hnw hne => ((hread b).2 hnw).trans (Memory.read_write_ne _ _ _ _ hne)⟩
    rw [step_pixWrite ha h, if_neg (by rw [hmayWrite]; exact not_not_intro hjob)]
  case openByte =>
    rw [step_pixRead ha h, if_neg (by rw [hmayRead]; exact not_not_intro hw)]
    rfl
  case breachTbl =>
    have hread := State.read_disturb (s := (s.withMoves rest).storeTbl o e) hb hj hwf
    have hframe := State.disturb_eq (s := (s.withMoves rest).storeTbl o e) hb hj
    refine ⟨((s.withMoves rest).storeTbl o e).disturb, ?_, hframe, fun b => (hread b).1, fun b => (hread b).2⟩
    rw [step_tblWrite ho h, if_neg (by rw [hmayTbl]; exact not_not_intro hin)]
  case store =>
    rw [step_pixWrite ha h, if_pos (hmayWrite.2 (not_or_intro hnr hnw))]
    rfl
  case load =>
    rw [step_pixRead ha h, if_pos (hmayRead.2 hnw)]
    rfl
  case storeTbl =>
    rw [step_tblWrite ho h, if_pos (hmayTbl.2 hout)]
    rfl

section NotBusy

variable {s : State} {a : Nat} {rest : List Move} (hb : s.state ≠ .busy)

include hb

theorem step_pixWrite_notBusy {v : Byte} (ha : a < 2 ^ s.cfg.addrBits) (h : s.moves = .pixWrite a v :: rest) :
    step s = .next { s with moves := rest, pix := Memory.write s.pix a v } := by
  obtain ⟨hmay, -, -⟩ := State.may_notBusy (s := s.withMoves rest) hb a
  rw [step_pixWrite ha h, if_pos hmay]
  rfl

theorem step_pixRead_notBusy (ha : a < 2 ^ s.cfg.addrBits) (h : s.moves = .pixRead a :: rest) :
    step s = .next { s with moves := rest, readData := (Memory.read s.pix a).setWidth 32 } := by
  obtain ⟨-, hmay, -⟩ := State.may_notBusy (s := s.withMoves rest) hb a
  rw [step_pixRead ha h, if_pos hmay]
  rfl

theorem step_tblWrite_notBusy {e : Elem} (ha : a < s.cfg.tblCapacity) (h : s.moves = .tblWrite a e :: rest) :
    step s = .next { s with moves := rest, tbl := Memory.write s.tbl a e } := by
  obtain ⟨-, -, hmay⟩ := State.may_notBusy (s := s.withMoves rest) hb a
  rw [step_tblWrite ha h, if_pos hmay]
  rfl

end NotBusy

/-- Settles O58: a store and a load of the same location, one step each, and the fault of a location that does not
exist. -/
theorem hostMemoryAccess : Obligations.HostMemoryAccess := by
  intro s a v e rest hb hwf hwft
  refine ⟨fun ha h => ?pix, fun ha h => ?tbl, fun ha h => ?noByte, fun ha h => ?noElement⟩
  case pix =>
    have hstore := step_pixWrite_notBusy hb ha h
    have hload := runSteps_next (n := 0) (step_pixRead_notBusy (s := { s with
      moves := .pixRead a :: rest, pix := Memory.write s.pix a v }) hb ha rfl)
    rw [Memory.read_write_same _ _ _ hwf] at hload
    exact ⟨_, (runSteps_next hstore).trans hload, rfl, fun b hne => Memory.read_write_ne _ _ _ _ hne, rfl⟩
  case tbl =>
    have hstore := step_tblWrite_notBusy hb ha h
    have hload := runSteps_next (n := 0) (step_tblRead (s := { s with
      moves := .tblRead a :: rest, tbl := Memory.write s.tbl a e }) ha rfl)
    rw [Memory.read_write_same _ _ _ hwft] at hload
    exact ⟨_, (runSteps_next hstore).trans hload, rfl, fun b hne => Memory.read_write_ne _ _ _ _ hne, rfl⟩
  case noByte => exact h.elim (step_pixWrite_beyond ha) (step_pixRead_beyond ha)
  case noElement => exact h.elim (step_tblWrite_beyond ha) (step_tblRead_beyond ha)

end Sys2Proof.Machine
end
